-- ==== Sys2Proof/Word.lean ====
section
/-! DEFINITION. The two word types of the block: bytes of BUF and 32-bit registers (00_scope.md R8). -/

namespace Sys2Proof

/-- One byte of the buffer (10_state.md R40). -/
abbrev Byte := BitVec 8

/-- One 32-bit register, host datum or command word (10_state.md R22, 30_encoding.md R80). -/
abbrev Word := BitVec 32

end Sys2Proof
end

