-- ==== Sys2Proof/Syntax.lean ====
section
/-! DEFINITION. The fourteen commands of PK8CB-CMD (30_encoding.md R92), one constructor per row of the opcode table.
Operands are the unsigned values of their bit fields (R90); whether they fit the fields is `Instr.wf`. -/

namespace Sys2Proof

/-- SRC of format U (30_encoding.md R86): the source integer of UNPK. -/
inductive Src where
  | opa
  | acc
deriving DecidableEq, Repr

/-- INVSEL of format S (30_encoding.md R87): PERM takes row IDX, PERM.INV takes row INV[IDX]. -/
inductive RowSel where
  | direct
  | inverse
deriving DecidableEq, Repr

/-- A command. The names of the operands are those of 30_encoding.md R99. -/
inductive Instr where
  | nop
  | getbit (addr bit : Nat)
  | setbit (addr bit : Nat) (val : Bool)
  | pkclr
  | pkapp (w : Nat)
  | unpk (off w : Nat) (src : Src)
  | perm (idx : Nat) (sel : RowSel)
  | crypt (start stop : Nat)
  | decrypt
  | encrypt
  | decif
  | csum (stop : Nat)
  | csumst (stop : Nat)
  | csumvf (stop : Nat)
deriving DecidableEq, Repr

/-- The mnemonic of the command's row in the opcode map (30_encoding.md R92). -/
def Instr.mnemonic : Instr → String
  | .nop => "NOP"
  | .getbit _ _ => "GETBIT"
  | .setbit _ _ _ => "SETBIT"
  | .pkclr => "PKCLR"
  | .pkapp _ => "PKAPP"
  | .unpk _ _ _ => "UNPK"
  | .perm _ _ => "PERM"
  | .crypt _ _ => "CRYPT"
  | .decrypt => "DECRYPT"
  | .encrypt => "ENCRYPT"
  | .decif => "DECIF"
  | .csum _ => "CSUM"
  | .csumst _ => "CSUMST"
  | .csumvf _ => "CSUMVF"

end Sys2Proof
end

