-- ==== Sys2Proof/WellFormed.lean ====
section
/-! DEFINITION. Which commands have an encoding: every operand fits its field (30_encoding.md R99). -/

namespace Sys2Proof

/-- Every operand fits its bit field: ADDR, START and END 9 bits, BITIDX 8, W and OFF 6, IDX 5 (30_encoding.md R82, R99).
A BITIDX of 8 to 255 fits (R84). -/
def Instr.wf : Instr → Bool
  | .nop | .pkclr | .decrypt | .encrypt | .decif => true
  | .getbit addr bit => decide (addr < 2 ^ 9) && decide (bit < 2 ^ 8)
  | .setbit addr bit _ => decide (addr < 2 ^ 9) && decide (bit < 2 ^ 8)
  | .pkapp w => decide (w < 2 ^ 6)
  | .unpk off w _ => decide (off < 2 ^ 6) && decide (w < 2 ^ 6)
  | .perm idx _ => decide (idx < 2 ^ 5)
  | .crypt start stop => decide (start < 2 ^ 9) && decide (stop < 2 ^ 9)
  | .csum stop | .csumst stop | .csumvf stop => decide (stop < 2 ^ 9)

end Sys2Proof
end

