-- ==== Sys2Proof/Decode.lean ====
section
/-! DEFINITION. The decoder of command words, total on any 32 bits and rejecting by name (30_encoding.md R80 to R98), the
opcode map it realises (R92), and after it the encoder. -/

namespace Sys2Proof

/-- Why a word is no command; each of them raises IllegalCommand (30_encoding.md R94, R95, R96). -/
inductive Reject where
  /-- R94: OP is unassigned. -/
  | unassignedOp
  /-- R95: OP is assigned and a bit that its format marks "0" is 1. -/
  | reservedBits
  /-- R96: OP = 0x30 with MODE = 3. -/
  | checksumMode3
deriving DecidableEq, Repr

/-- `c[hi:lo]` as an unsigned number (00_scope.md R8). -/
def fld (c : Word) (hi lo : Nat) : Nat := c.toNat / 2 ^ lo % 2 ^ (hi + 1 - lo)

/-- The command `i` if the reserved field `rsv` is 0, else illegal (30_encoding.md R95). -/
def reservedZero (rsv : Nat) (i : Instr) : Except Reject Instr :=
  if rsv = 0 then .ok i else .error .reservedBits

/-- SRC (30_encoding.md R86). -/
def srcOf (b : Nat) : Src := if b = 0 then .opa else .acc

/-- INVSEL (30_encoding.md R87). -/
def rowSelOf (b : Nat) : RowSel := if b = 0 then .direct else .inverse

/-- Format K: OP = 0x30, MODE selects the mnemonic (30_encoding.md R89, R95, R96). -/
def decodeChecksum (c : Word) : Except Reject Instr :=
  if fld c 31 19 ≠ 0 then .error .reservedBits
  else if fld c 18 17 = 0 then .ok (.csum (fld c 16 8))
  else if fld c 18 17 = 1 then .ok (.csumst (fld c 16 8))
  else if fld c 18 17 = 2 then .ok (.csumvf (fld c 16 8))
  else .error .checksumMode3

/-- The decoder: OP = c[7:0] alone selects the format (30_encoding.md R81, R82, R93). -/
def decode (c : Word) : Except Reject Instr :=
  if fld c 7 0 = 0x00 then reservedZero (fld c 31 8) .nop
  else if fld c 7 0 = 0x01 then reservedZero (fld c 23 17) (.getbit (fld c 16 8) (fld c 31 24))
  else if fld c 7 0 = 0x02 then
    reservedZero (fld c 23 18) (.setbit (fld c 16 8) (fld c 31 24) (decide (fld c 17 17 = 1)))
  else if fld c 7 0 = 0x03 then reservedZero (fld c 31 8) .pkclr
  else if fld c 7 0 = 0x04 then reservedZero (fld c 31 14) (.pkapp (fld c 13 8))
  else if fld c 7 0 = 0x05 then
    reservedZero (fld c 31 22 + fld c 15 15) (.unpk (fld c 13 8) (fld c 21 16) (srcOf (fld c 14 14)))
  else if fld c 7 0 = 0x10 then reservedZero (fld c 31 14) (.perm (fld c 12 8) (rowSelOf (fld c 13 13)))
  else if fld c 7 0 = 0x20 then reservedZero (fld c 31 26) (.crypt (fld c 16 8) (fld c 25 17))
  else if fld c 7 0 = 0x21 then reservedZero (fld c 31 8) .decrypt
  else if fld c 7 0 = 0x22 then reservedZero (fld c 31 8) .encrypt
  else if fld c 7 0 = 0x23 then reservedZero (fld c 31 8) .decif
  else if fld c 7 0 = 0x30 then decodeChecksum c
  else .error .unassignedOp

/-- The host's view of the decoder: a command is one 32-bit word (30_encoding.md R80), `w` its low `nbits` bits. -/
def decodeTableWord (nbits w : Nat) : Option Instr :=
  match decode (BitVec.ofNat 32 (w % 2 ^ nbits)) with
  | .ok i => some i
  | .error _ => none

/-- One row of the opcode map (30_encoding.md R92). -/
structure OpcodeRow where
  mnemonic : String
  mask : Word
  value : Word
deriving DecidableEq, Repr

/-- The opcode map: a word `c` is the row's command iff `c & mask == match` (30_encoding.md R92). -/
def opcodeMap : List OpcodeRow :=
  [ ⟨"NOP",     0xFFFFFFFF, 0x00000000⟩,
    ⟨"GETBIT",  0x00FE00FF, 0x00000001⟩,
    ⟨"SETBIT",  0x00FC00FF, 0x00000002⟩,
    ⟨"PKCLR",   0xFFFFFFFF, 0x00000003⟩,
    ⟨"PKAPP",   0xFFFFC0FF, 0x00000004⟩,
    ⟨"UNPK",    0xFFC080FF, 0x00000005⟩,
    ⟨"PERM",    0xFFFFC0FF, 0x00000010⟩,
    ⟨"CRYPT",   0xFC0000FF, 0x00000020⟩,
    ⟨"DECRYPT", 0xFFFFFFFF, 0x00000021⟩,
    ⟨"ENCRYPT", 0xFFFFFFFF, 0x00000022⟩,
    ⟨"DECIF",   0xFFFFFFFF, 0x00000023⟩,
    ⟨"CSUM",    0xFFFE00FF, 0x00000030⟩,
    ⟨"CSUMST",  0xFFFE00FF, 0x00020030⟩,
    ⟨"CSUMVF",  0xFFFE00FF, 0x00040030⟩ ]

/-- SRC as a bit (30_encoding.md R86). -/
def Src.bit : Src → Nat
  | .opa => 0
  | .acc => 1

/-- INVSEL as a bit (30_encoding.md R87). -/
def RowSel.bit : RowSel → Nat
  | .direct => 0
  | .inverse => 1

/-- The command word as a number: each operand at its field's lowest bit (30_encoding.md R82, R92). -/
def encodeNat : Instr → Nat
  | .nop => 0x00
  | .getbit addr bit => 0x01 + addr * 2 ^ 8 + bit * 2 ^ 24
  | .setbit addr bit val => 0x02 + addr * 2 ^ 8 + val.toNat * 2 ^ 17 + bit * 2 ^ 24
  | .pkclr => 0x03
  | .pkapp w => 0x04 + w * 2 ^ 8
  | .unpk off w src => 0x05 + off * 2 ^ 8 + src.bit * 2 ^ 14 + w * 2 ^ 16
  | .perm idx sel => 0x10 + idx * 2 ^ 8 + sel.bit * 2 ^ 13
  | .crypt start stop => 0x20 + start * 2 ^ 8 + stop * 2 ^ 17
  | .decrypt => 0x21
  | .encrypt => 0x22
  | .decif => 0x23
  | .csum stop => 0x30 + stop * 2 ^ 8
  | .csumst stop => 0x30 + stop * 2 ^ 8 + 1 * 2 ^ 17
  | .csumvf stop => 0x30 + stop * 2 ^ 8 + 2 * 2 ^ 17

/-- The command word of a well-formed command (30_encoding.md R82, R92). -/
def encode (i : Instr) : Word := BitVec.ofNat 32 (encodeNat i)

/-- The assembler: an operand that does not fit its field is refused, never truncated (30_encoding.md R99). -/
def assemble (i : Instr) : Option Word := if i.wf then some (encode i) else none

/-- The command in assembly (30_encoding.md R99). -/
def Instr.asmText : Instr → String
  | .nop => "NOP"
  | .getbit addr bit => "GETBIT " ++ addr.repr ++ ", " ++ bit.repr
  | .setbit addr bit val => "SETBIT " ++ addr.repr ++ ", " ++ bit.repr ++ ", " ++ val.toNat.repr
  | .pkclr => "PKCLR"
  | .pkapp w => "PKAPP " ++ w.repr
  | .unpk off w .opa => "UNPK " ++ off.repr ++ ", " ++ w.repr
  | .unpk off w .acc => "UNPK.ACC " ++ off.repr ++ ", " ++ w.repr
  | .perm idx .direct => "PERM " ++ idx.repr
  | .perm idx .inverse => "PERM.INV " ++ idx.repr
  | .crypt start stop => "CRYPT " ++ start.repr ++ ", " ++ stop.repr
  | .decrypt => "DECRYPT"
  | .encrypt => "ENCRYPT"
  | .decif => "DECIF"
  | .csum stop => "CSUM " ++ stop.repr
  | .csumst stop => "CSUMST " ++ stop.repr
  | .csumvf stop => "CSUMVF " ++ stop.repr

end Sys2Proof
end

