-- ==== Sys2Proof/Config.lean ====
section
/-! DEFINITION. What an implementation fixes (00_scope.md R6, R7), and the free values: constants with no body, of which
nothing can be proved but their type. -/

namespace Sys2Proof.Config

/-- The ID register's constant (10_state.md R23). -/
def idValue : Word := 0x504B3801

/-- `LCG_MUL` (00_scope.md R6). -/
def lcgMul : Word := 0x41C64E6D

/-- `LCG_ADD` (00_scope.md R6). -/
def lcgAdd : Word := 0x00006073

/-- `PARTY_LEN` (00_scope.md R6): the bytes of BUF. -/
abbrev partyLen : Nat := 344

/-- `STORED_LEN` (00_scope.md R6). -/
abbrev storedLen : Nat := 328

/-- `HDR_LEN` (00_scope.md R6). -/
abbrev hdrLen : Nat := 8

/-- `BLOCK_SIZE` (00_scope.md R6). -/
abbrev blockSize : Nat := 80

/-- `NBLOCKS` (00_scope.md R6). -/
abbrev nBlocks : Nat := 4

/-- `BLOCKS_END = HDR_LEN + NBLOCKS * BLOCK_SIZE` (00_scope.md R6). -/
abbrev blocksEnd : Nat := 328

/-- `CSUM_OFS` (00_scope.md R6). -/
abbrev csumOfs : Nat := 6

/-- `SEED_OFS` (00_scope.md R6). -/
abbrev seedOfs : Nat := 0

/-- `SHUF_SHIFT` (00_scope.md R6). -/
abbrev shufShift : Nat := 13

/-- `SHUF_MASK + 1` (00_scope.md R6): the number of shuffle indices. -/
abbrev shufRows : Nat := 32

/-- The ROM (10_state.md R44): FWD, 128 entries of 2 bits, and INV, 32 entries of 5 bits. -/
structure Tables where
  fwd : List (Fin 4)
  inv : List (Fin 32)
deriving DecidableEq, Repr

/-- Which of the 40 even offsets of bytes 168 to 247 `GUARD_OFS_A` is: OPEN, no value (00_scope.md R7, log entry 4). -/
opaque guardSlotA : Fin 40

/-- Which of the 40 even offsets of bytes 168 to 247 `GUARD_OFS_B` is: OPEN, no value (00_scope.md R7, log entry 4). -/
opaque guardSlotB : Fin 40

/-- `GUARD_OFS_A`: even, in 168..246 (00_scope.md R7). -/
def guardOfsA : Nat := 168 + 2 * guardSlotA.val

/-- `GUARD_OFS_B`: even, in 168..246 (00_scope.md R7). -/
def guardOfsB : Nat := 168 + 2 * guardSlotB.val

/-- Free value: what byte `a` of BUF holds after reset number `epoch` until something is written there (10_state.md R43,
log entry 2). -/
opaque powerOnByte (epoch a : Nat) : Byte

/-- Free value: what the `n`-th draw gives a host read that is unspecified while BUSY = 1 (10_state.md R36, 20_memory.md
R70, log entry 6). -/
opaque busyRead (n : Nat) : Word

/-- Free value: `CMD_LATENCY - 1` of the command `c` accepted at draw `n` (00_scope.md R6, R7, log entry 3); so every
latency is finite and at least one cycle. -/
opaque latency (n : Nat) (c : Word) : Nat

end Sys2Proof.Config
end

