-- ==== Sys2Proof/Machine/Rom.lean ====
section
/-! DEFINITION. The ROM tables FWD and INV: how they are read, their contents, and the constraints on any pair
(10_state.md R44, 41_permute.md R131 to R133). -/

namespace Sys2Proof.Config

/-- `FWD[4*r + blk]`: the source sub-block of destination `blk` under row `r` (41_permute.md R130). -/
def Tables.row (t : Tables) (r blk : Nat) : Nat := (t.fwd.getD (4 * r + blk) 0).val

/-- `INV[i]` (41_permute.md R132). -/
def Tables.invRow (t : Tables) (i : Nat) : Nat := (t.inv.getD i 0).val

/-- FWD rows 0 to 7, and again rows 24 to 31 (41_permute.md R131, R133 (d)). -/
def fwdRows0to7 : List (Fin 4) :=
  [0,1,2,3, 0,1,3,2, 0,2,1,3, 0,3,1,2, 0,2,3,1, 0,3,2,1, 1,0,2,3, 1,0,3,2]

/-- FWD rows 8 to 15 (41_permute.md R131). -/
def fwdRows8to15 : List (Fin 4) :=
  [2,0,1,3, 3,0,1,2, 2,0,3,1, 3,0,2,1, 1,2,0,3, 1,3,0,2, 2,1,0,3, 3,1,0,2]

/-- FWD rows 16 to 23 (41_permute.md R131). -/
def fwdRows16to23 : List (Fin 4) :=
  [2,3,0,1, 3,2,0,1, 1,2,3,0, 1,3,2,0, 2,1,3,0, 3,1,2,0, 2,3,1,0, 3,2,1,0]

/-- INV entries 0 to 7, and again entries 24 to 31 (41_permute.md R132, R133 (d)). -/
def invEntries0to7 : List (Fin 32) := [0, 1, 2, 4, 3, 5, 6, 7]

/-- INV entries 8 to 23 (41_permute.md R132). -/
def invEntries8to23 : List (Fin 32) := [12, 18, 13, 19, 8, 10, 14, 20, 16, 22, 9, 11, 15, 21, 17, 23]

/-- The default contents, which `State.reset` has (41_permute.md R131, R132). PRESUMED: the spec has them from general
knowledge (93 I1), log entry 5. -/
def defaultTables : Tables where
  fwd := fwdRows0to7 ++ fwdRows8to15 ++ fwdRows16to23 ++ fwdRows0to7
  inv := invEntries0to7 ++ invEntries8to23 ++ invEntries0to7

/-- The constraints (a) to (d) that any FWD/INV pair must meet (41_permute.md R133), (c) said of the entries: going through
row `i` and then row `INV[i]`, in either order, ends where it began. -/
def Tables.admissible (t : Tables) : Bool :=
  t.fwd.length == 128 && t.inv.length == 32
  && (List.range 32).all (fun r => (List.range 4).all fun b => (List.range 4).any fun k => t.row r k == b)
  && (List.range 32).all (fun i => (List.range 4).all fun b =>
      t.row i (t.row (t.invRow i) b) == b && t.row (t.invRow i) (t.row i b) == b)
  && (List.range 8).all (fun i => t.invRow (24 + i) == t.invRow i
      && (List.range 4).all fun b => t.row (24 + i) b == t.row i b)

end Sys2Proof.Config
end

