-- ==== Sys2Proof/Machine/State.lean ====
section
/-! DEFINITION. The state of the block as plain data: every register of 10_state.md R22, BUF (R40), the hidden latch (R47),
and the model's own fields that say what the host does next and which free values have been drawn. -/

namespace Sys2Proof.Machine

/-- The implemented bits of CTRL (10_state.md R24); bits 31:2 read 0 and ignore writes. -/
structure Ctrl where
  form : Bool
  irqEn : Bool
deriving DecidableEq, Repr

/-- The implemented bits of STATUS (10_state.md R25); bits 31:8 read 0 and ignore writes. -/
structure Status where
  busy : Bool
  done : Bool
  errIllegal : Bool
  errContract : Bool
  errBusy : Bool
  clamp : Bool
  mismatch : Bool
  decrypted : Bool
deriving DecidableEq, Repr

/-- BUF (10_state.md R40). `cells` lists the bytes written since the last reset, addresses strictly rising and below 344
(`Memory.wf`); a byte not listed holds the free value that reset number `epoch` left there (R43, log entry 2). -/
structure Memory where
  cells : List Host.Cell
  epoch : Nat
deriving DecidableEq, Repr

/-- The size of a host transaction: 1, 2 or 4 bytes (20_memory.md R61). -/
inductive Size where
  | byte
  | half
  | word
deriving DecidableEq, Repr

/-- A host port transaction (20_memory.md R61). Of a write's datum the low `size` bytes travel (R63, log entry 15). -/
inductive Transaction where
  | read (addr : BitVec 12) (size : Size)
  | write (addr : BitVec 12) (size : Size) (data : Word)
deriving DecidableEq, Repr

/-- What the host does in one cycle (70_reset_and_hazards.md R205). -/
inductive HostEvent where
  /-- No transaction in this cycle. -/
  | idle
  | transact (t : Transaction)
  /-- The host asserts reset (R190). -/
  | reset
  /-- The host breaks its duty: a transaction that overlaps the reset event or another transaction (R205, log entry 10). -/
  | overlap
deriving DecidableEq, Repr

/-- The response to a transaction (20_memory.md R61). -/
inductive Response where
  | ok
  | error
deriving DecidableEq, Repr

/-- What the host gets back: the response, and a read's datum, zero-extended (20_memory.md R61, R63). A write and an ERROR
carry 0. -/
structure Reply where
  response : Response
  data : Word
deriving DecidableEq, Repr

/-- The state of the block (INVENTORY.md, State). -/
structure State where
  ctrl : Ctrl
  status : Status
  cmdl : Word
  opa : Word
  seed : Word
  result : Word
  acc : Word
  pos : BitVec 6
  lcg : Word
  csum : BitVec 16
  buf : Memory
  /-- FWD and INV: read-only, any pair that meets `Config.Tables.admissible` (00_scope.md R7, 10_state.md R44, log entry 5). -/
  rom : Config.Tables
  wait : Nat
  draws : Nat
  inbox : List HostEvent
  replies : List Reply
deriving DecidableEq, Repr

/-- Why a step stops. No command raises one: the block records its errors in STATUS (60_exceptions.md R170 to R175). -/
inductive Fault where
  /-- Raised by the host's turn when the host overlaps transactions or a transaction with reset: the spec gives it no effect
  (70_reset_and_hazards.md R205, 93 U12). Safe: the model stops where the spec says nothing. -/
  | hostOverlap
deriving DecidableEq, Repr

/-- Why a step has no meaning. -/
inductive Refusal where
  /-- Raised by an arm of `exec` whose command has no meaning yet; no arm does. Safe. -/
  | notModelled (mnemonic : String)
deriving DecidableEq, Repr

/-- CTRL after reset (10_state.md R24, 70_reset_and_hazards.md R190). -/
def Ctrl.reset : Ctrl where
  form := false
  irqEn := false

/-- STATUS after reset (10_state.md R25, 70_reset_and_hazards.md R190). -/
def Status.reset : Status where
  busy := false
  done := false
  errIllegal := false
  errContract := false
  errBusy := false
  clamp := false
  mismatch := false
  decrypted := false

/-- The block right after reset (70_reset_and_hazards.md R190): every register 0, BUF with nothing listed, so every byte
unspecified, the ROM with its default contents (00_scope.md R7). DESIGN CHOICE: CMDL is 0 (log entry 1) and the model's own fields are 0 or empty (log entry 18). -/
def State.reset : State where
  ctrl := Ctrl.reset
  status := Status.reset
  cmdl := 0
  opa := 0
  seed := 0
  result := 0
  acc := 0
  pos := 0
  lcg := 0
  csum := 0
  buf := ⟨[], 0⟩
  rom := Config.defaultTables
  wait := 0
  draws := 0
  inbox := []
  replies := []

end Sys2Proof.Machine
end

