-- ==== Sys2Proof/Machine/Ops.lean ====
section
/-! DEFINITION. The named operations: bytes of BUF and little-endian values (00_scope.md R9, 20_memory.md R62), how a command
ends (60_exceptions.md R170 to R172), recording an error in STATUS and clearing it (R171 to R173, 10_state.md R26). -/

namespace Sys2Proof.Machine

/-- The byte listed at address `a`, if any. -/
def cellAt (a : Nat) : List Host.Cell → Option Byte
  | [] => none
  | (b, v) :: rest => if a = b then some v else cellAt a rest

/-- List the byte `v` at address `a`, keeping addresses strictly rising. -/
def putCell (a : Nat) (v : Byte) : List Host.Cell → List Host.Cell
  | [] => [(a, v)]
  | (b, w) :: rest =>
    if a < b then (a, v) :: (b, w) :: rest
    else if a = b then (a, v) :: rest
    else (b, w) :: putCell a v rest

/-- Addresses strictly rising, from `lo` on, and below 344. -/
def cellsWf (lo : Nat) : List Host.Cell → Bool
  | [] => true
  | (a, _) :: rest => decide (lo ≤ a) && decide (a < Config.partyLen) && cellsWf (a + 1) rest

/-- The canonical form of BUF: addresses strictly rising, none outside BUF (10_state.md R40). An unlisted byte has no
value of its own, so no entry can equal what it reads as (log entry 2). -/
def Memory.wf (m : Memory) : Bool := cellsWf 0 m.cells

/-- `BUF[a]` (00_scope.md R9): the byte written last, or the free byte that reset left (10_state.md R43). -/
def Memory.get (m : Memory) (a : Nat) : Byte :=
  match cellAt a m.cells with
  | some v => v
  | none => Config.powerOnByte m.epoch a

/-- `BUF[a] <- v` (00_scope.md R9). An offset of 344 or more addresses nothing (20_memory.md R60); no access of the model
has one (log entry 16). -/
def Memory.set (m : Memory) (a : Nat) (v : Byte) : Memory :=
  if a < Config.partyLen then { m with cells := putCell a v m.cells } else m

/-- `MemRead(a, n)`: little-endian (00_scope.md R9, 20_memory.md R62). -/
def Memory.memRead (m : Memory) (a : Nat) : Nat → Nat
  | 0 => 0
  | n + 1 => (m.get a).toNat + 256 * m.memRead (a + 1) n

/-- `MemWrite(a, n, v)`: little-endian (00_scope.md R9, 20_memory.md R62). -/
def Memory.memWrite (m : Memory) (a : Nat) : Nat → Nat → Memory
  | 0, _ => m
  | n + 1, v => (m.set a (BitVec.ofNat 8 v)).memWrite (a + 1) n (v / 256)

/-- The seed of the container, the u32 at bytes 0 to 3 (10_state.md R41, 42_cipher.md R144). -/
def Memory.seed (m : Memory) : Word := BitVec.ofNat 32 (m.memRead Config.seedOfs 4)

/-- The checksum field of the container, the u16 at bytes 6 to 7 (10_state.md R41, 43_checksum.md R163). -/
def Memory.storedCsum (m : Memory) : BitVec 16 := BitVec.ofNat 16 (m.memRead Config.csumOfs 2)

/-- `complete`: DONE <- 1, BUSY <- 0 (60_exceptions.md R170). -/
def State.complete (s : State) : State :=
  { s with status := { s.status with done := true, busy := false } }

/-- The two errors a command can end with (60_exceptions.md R171, R172). -/
inductive CmdError where
  | illegalCommand
  | contractError
deriving DecidableEq, Repr

/-- The sticky bit that records a command's error (60_exceptions.md R175). -/
def Status.record (st : Status) : CmdError → Status
  | .illegalCommand => { st with errIllegal := true }
  | .contractError => { st with errContract := true }

/-- `raise IllegalCommand` and `raise ContractError`: the error's bit, DONE <- 1 and BUSY <- 0 are the only effects
(60_exceptions.md R171, R172). There is no trap entry: nothing is saved and control goes nowhere (R178). -/
def State.raise (e : CmdError) (s : State) : State :=
  { s with status := { s.status.record e with done := true, busy := false } }

/-- `raise Busy`: a host write while BUSY = 1 is discarded and sets ERR_BUSY, not DONE (60_exceptions.md R173). -/
def State.raiseBusy (s : State) : State :=
  { s with status := { s.status with errBusy := true } }

/-- A host write of `d` to STATUS: a 1 in bits 1 to 5 clears that bit (10_state.md R26). This is all the return from an
error there is (60_exceptions.md R179). -/
def State.clearSticky (d : Word) (s : State) : State :=
  { s with status := { s.status with
      done := s.status.done && !d.getLsbD 1
      errIllegal := s.status.errIllegal && !d.getLsbD 2
      errContract := s.status.errContract && !d.getLsbD 3
      errBusy := s.status.errBusy && !d.getLsbD 4
      clamp := s.status.clamp && !d.getLsbD 5 } }

/-- The reset event (70_reset_and_hazards.md R190): every field at its reset value; every byte of BUF a new free value
(10_state.md R43); the command in flight abandoned; the ROM unaffected. What the host still does, what it has been answered and the count of
draws are not the block's and stay (log entry 14). -/
def State.resetEvent (s : State) : State :=
  { State.reset with
    buf := ⟨[], s.buf.epoch + 1⟩
    rom := s.rom
    draws := s.draws
    inbox := s.inbox
    replies := s.replies }

/-- The command word `c` latched, BUSY <- 1, `wait` cycles before its last (10_state.md R27, 60_exceptions.md R170). -/
def State.latch (c : Word) (wait : Nat) (s : State) : State :=
  { s with cmdl := c, wait := wait, status := { s.status with busy := true } }

/-- The inbox with an idle cycle first: what the host does is put off by one cycle (an empty inbox is idle already). -/
def holdHost : List HostEvent → List HostEvent
  | [] => []
  | e :: rest => .idle :: e :: rest

end Sys2Proof.Machine
end

