-- ==== Sys2Proof/Machine/Operands.lean ====
section
/-! DEFINITION. The operand forms of the commands and the contract of each (60_exceptions.md R172). -/

namespace Sys2Proof.Machine

/-- `LEN`: 328 at FORM = 0, 344 at FORM = 1 (10_state.md R42). -/
def State.len (s : State) : Nat := if s.ctrl.form then Config.partyLen else Config.storedLen

/-- ADDR names a byte below LEN (40_bitfield.md R111, R112). -/
def State.addrOk (s : State) (addr : Nat) : Bool := decide (addr < s.len)

/-- `BITIDX & 7` (30_encoding.md R84). -/
def bitIndex (bit : Nat) : Nat := bit % 8

/-- PKAPP's contract: the width is not 0 and the field ends at or below bit 31 (40_bitfield.md R114). -/
def State.appendOk (s : State) (w : Nat) : Bool := decide (w ≠ 0) && decide (s.pos.toNat + w ≤ 32)

/-- UNPK's contract (40_bitfield.md R115). -/
def fieldOk (off w : Nat) : Bool := decide (w ≠ 0) && decide (off + w ≤ 32)

/-- UNPK's source integer (30_encoding.md R86, 40_bitfield.md R115). -/
def State.source (s : State) : Src → Word
  | .opa => s.opa
  | .acc => s.acc

/-- PERM's row: IDX, or INV[IDX] (30_encoding.md R87, 41_permute.md R134). -/
def permRow (t : Config.Tables) (idx : Nat) : RowSel → Nat
  | .direct => idx
  | .inverse => t.invRow idx

/-- CRYPT's contract: START < END <= LEN and an even length (42_cipher.md R142). -/
def State.rangeOk (s : State) (start stop : Nat) : Bool :=
  decide (start < stop) && decide (stop ≤ s.len) && decide ((stop - start) % 2 = 0)

/-- The checksum commands' contract: 8 <= END <= LEN and END even (43_checksum.md R161). -/
def State.sumEndOk (s : State) (stop : Nat) : Bool :=
  decide (Config.hdrLen ≤ stop) && decide (stop ≤ s.len) && decide (stop % 2 = 0)

/-- The shuffle index of a seed, its bits 17:13 (42_cipher.md R144, R152). -/
def shuffleIndex (seed : Word) : Nat := seed.toNat / 2 ^ Config.shufShift % Config.shufRows

end Sys2Proof.Machine
end

