-- ==== Sys2Proof/Machine/Flags.lean ====
section
/-! DEFINITION. Every flag a command computes, the words CTRL and STATUS read as, and the interrupt output. -/

namespace Sys2Proof.Machine

/-- `2^w - 1`, exact (40_bitfield.md R114, R115). -/
def maxField (w : Nat) : Nat := 2 ^ w - 1

/-- PKAPP's saturation: the value, or the greatest of the width (40_bitfield.md R114). -/
def saturate (v w : Nat) : Nat := if maxField w < v then maxField w else v

/-- CLAMP after PKAPP: set when the value saturates, else as it was (40_bitfield.md R114). -/
def clampFlag (old : Bool) (v w : Nat) : Bool := old || decide (maxField w < v)

/-- MISMATCH after CSUMVF (43_checksum.md R163). -/
def mismatchFlag (sum stored : BitVec 16) : Bool := decide (sum ≠ stored)

/-- DECIF's test: both guard words are nonzero (42_cipher.md R146). -/
def guardsNonzero (m : Memory) : Bool :=
  decide (m.memRead Config.guardOfsA 2 ≠ 0) && decide (m.memRead Config.guardOfsB 2 ≠ 0)

/-- CTRL as the port reads it (10_state.md R24). -/
def Ctrl.toWord (c : Ctrl) : Word := BitVec.ofNat 32 (c.form.toNat + 2 * c.irqEn.toNat)

/-- CTRL as the port writes it: bits 31:2 are discarded (10_state.md R24). -/
def Ctrl.ofWord (d : Word) : Ctrl where
  form := d.getLsbD 0
  irqEn := d.getLsbD 1

/-- STATUS as the port reads it (10_state.md R25). -/
def Status.toWord (st : Status) : Word :=
  BitVec.ofNat 32 (st.busy.toNat + 2 * st.done.toNat + 4 * st.errIllegal.toNat + 8 * st.errContract.toNat
    + 16 * st.errBusy.toNat + 32 * st.clamp.toNat + 64 * st.mismatch.toNat + 128 * st.decrypted.toNat)

/-- The level output `irq` (10_state.md R49). -/
def State.irq (s : State) : Bool :=
  s.ctrl.irqEn && (s.status.done || s.status.errIllegal || s.status.errContract || s.status.errBusy)

end Sys2Proof.Machine
end

