-- ==== Sys2Proof/Machine/Bitfield.lean ====
section
/-! DEFINITION. The bit-field packer's commands (40_bitfield.md R110 to R115). -/

namespace Sys2Proof.Machine

/-- NOP (40_bitfield.md R110). -/
def execNop (s : State) : Host.Outcome State Fault Refusal := .next s.complete

/-- Bit `k` of a byte, as `get_bit` gives it (40_bitfield.md R111). -/
def getBit (v : Byte) (k : Nat) : Word := BitVec.ofNat 32 (v.toNat / 2 ^ k % 2)

/-- The byte with bit `k` written, as `set_bit` gives it (40_bitfield.md R112). -/
def setBit (v : Byte) (k : Nat) (b : Bool) : Byte :=
  (v &&& (0xFF ^^^ BitVec.ofNat 8 (2 ^ k))) ||| BitVec.ofNat 8 (b.toNat * 2 ^ k)

/-- GETBIT addr, bit (40_bitfield.md R111). -/
def execGetbit (addr bit : Nat) (s : State) : Host.Outcome State Fault Refusal :=
  if s.addrOk addr then
    .next (State.complete { s with result := getBit (s.buf.get addr) (bitIndex bit) })
  else .next (s.raise .contractError)

/-- SETBIT addr, bit, val (40_bitfield.md R112). -/
def execSetbit (addr bit : Nat) (val : Bool) (s : State) : Host.Outcome State Fault Refusal :=
  if s.addrOk addr then
    .next (State.complete { s with buf := s.buf.set addr (setBit (s.buf.get addr) (bitIndex bit) val) })
  else .next (s.raise .contractError)

/-- PKCLR (40_bitfield.md R113): CLAMP is not cleared. -/
def execPkclr (s : State) : Host.Outcome State Fault Refusal :=
  .next (State.complete { s with acc := 0, pos := 0 })

/-- What PKAPP writes when its contract holds (40_bitfield.md R114). -/
def State.append (s : State) (w : Nat) : State :=
  { s with
    acc := s.acc ||| BitVec.ofNat 32 (saturate s.opa.toNat w * 2 ^ s.pos.toNat)
    pos := BitVec.ofNat 6 (s.pos.toNat + w)
    status := { s.status with clamp := clampFlag s.status.clamp s.opa.toNat w } }

/-- PKAPP w (40_bitfield.md R114). -/
def execPkapp (w : Nat) (s : State) : Host.Outcome State Fault Refusal :=
  if s.appendOk w then .next (s.append w).complete else .next (s.raise .contractError)

/-- `unpack(integer, offset, width)` (40_bitfield.md R115). -/
def unpackField (x : Word) (off w : Nat) : Word := BitVec.ofNat 32 (x.toNat / 2 ^ off % 2 ^ w)

/-- UNPK off, w and UNPK.ACC off, w (40_bitfield.md R115). -/
def execUnpk (off w : Nat) (src : Src) (s : State) : Host.Outcome State Fault Refusal :=
  if fieldOk off w then
    .next (State.complete { s with result := unpackField (s.source src) off w })
  else .next (s.raise .contractError)

end Sys2Proof.Machine
end

