-- ==== Sys2Proof/Machine/Checksum.lean ====
section
/-! DEFINITION. The 16-bit additive checksum (43_checksum.md R160 to R163). -/

namespace Sys2Proof.Machine

/-- `n` rounds of the accumulator from offset `a`: wrapping 16-bit addition of little-endian words (43_checksum.md R160). -/
def checksumLoop (m : Memory) : Nat → Nat → BitVec 16 → BitVec 16
  | 0, _, sum => sum
  | n + 1, a, sum => checksumLoop m n (a + 2) (sum + BitVec.ofNat 16 (m.memRead a 2))

/-- `Checksum(e)`: the words at 8, 10, ..., e - 2 (43_checksum.md R160). -/
def checksum (m : Memory) (stop : Nat) : BitVec 16 :=
  checksumLoop m ((stop - Config.hdrLen) / 2) Config.hdrLen 0

/-- CSUM end (43_checksum.md R161). -/
def execCsum (stop : Nat) (s : State) : Host.Outcome State Fault Refusal :=
  if s.sumEndOk stop then .next (State.complete { s with csum := checksum s.buf stop })
  else .next (s.raise .contractError)

/-- CSUMST end (43_checksum.md R162). -/
def execCsumst (stop : Nat) (s : State) : Host.Outcome State Fault Refusal :=
  if s.sumEndOk stop then
    .next (State.complete { s with
      csum := checksum s.buf stop
      buf := s.buf.memWrite Config.csumOfs 2 (checksum s.buf stop).toNat })
  else .next (s.raise .contractError)

/-- CSUMVF end (43_checksum.md R163): a mismatch is no error. -/
def execCsumvf (stop : Nat) (s : State) : Host.Outcome State Fault Refusal :=
  if s.sumEndOk stop then
    .next (State.complete { s with
      csum := checksum s.buf stop
      status := { s.status with mismatch := mismatchFlag (checksum s.buf stop) s.buf.storedCsum } })
  else .next (s.raise .contractError)

end Sys2Proof.Machine
end

