-- ==== Sys2Proof/Machine/Permute.lean ====
section
/-! DEFINITION. The block permutation engine (41_permute.md R130, R134). -/

namespace Sys2Proof.Machine

/-- Copy `n` bytes of the snapshot `src` from offset `o` into `m` at offset `d`. -/
def copyBytes (src : Memory) (o d : Nat) : Nat → Memory → Memory
  | 0, m => m
  | n + 1, m => copyBytes src (o + 1) (d + 1) n (m.set d (src.get o))

/-- Destination sub-block `blk` receives the snapshot's sub-block `FWD[4r + blk]` (41_permute.md R130). -/
def permuteBlock (t : Config.Tables) (r : Nat) (src : Memory) (blk : Nat) (m : Memory) : Memory :=
  copyBytes src (Config.hdrLen + Config.blockSize * t.row r blk) (Config.hdrLen + Config.blockSize * blk)
    Config.blockSize m

/-- `Permute(r)`: every copy reads the buffer as it was before the operation (41_permute.md R130). -/
def permute (t : Config.Tables) (r : Nat) (m : Memory) : Memory :=
  (List.range Config.nBlocks).foldl (fun acc blk => permuteBlock t r m blk acc) m

/-- PERM idx and PERM.INV idx (41_permute.md R134). -/
def execPerm (idx : Nat) (sel : RowSel) (s : State) : Host.Outcome State Fault Refusal :=
  .next (State.complete { s with buf := permute s.rom (permRow s.rom idx sel) s.buf })

end Sys2Proof.Machine
end

