-- ==== Sys2Proof/Machine/Cipher.lean ====
section
/-! DEFINITION. The LCG XOR cipher and the container commands (42_cipher.md R140 to R146). -/

namespace Sys2Proof.Machine

/-- The LCG step, modulo 2^32 (42_cipher.md R140). -/
def lcgStep (x : Word) : Word := x * Config.lcgMul + Config.lcgAdd

/-- The first key byte of a state, its bits 23:16 (42_cipher.md R141). -/
def keyLow (x : Word) : Byte := x.extractLsb' 16 8

/-- The second key byte of a state, its bits 31:24 (42_cipher.md R141). -/
def keyHigh (x : Word) : Byte := x.extractLsb' 24 8

/-- Keystream byte `j` of the initial state `k`: step `j / 2 + 1`, its low key byte first (42_cipher.md R141). -/
def keyAt (k : Word) (j : Nat) : Byte :=
  if j % 2 = 0 then keyLow (lcgStep^[j / 2 + 1] k) else keyHigh (lcgStep^[j / 2 + 1] k)

/-- The two bytes at `a` XORed with the keys of the state `k` (42_cipher.md R141). -/
def xorPair (m : Memory) (a : Nat) (k : Word) : Memory :=
  let m1 := m.set a (m.get a ^^^ keyLow k)
  m1.set (a + 1) (m1.get (a + 1) ^^^ keyHigh k)

/-- `n` rounds of the cipher's loop from offset `a` and state `k`: a step, then the XOR of one pair (42_cipher.md R141). -/
def cryptLoop : Nat → Nat → Word → Memory → Memory × Word
  | 0, _, k, m => (m, k)
  | n + 1, a, k, m => cryptLoop n (a + 2) (lcgStep k) (xorPair m a (lcgStep k))

/-- `CryptRange(s0, a, b)`: the buffer after it and the last state (42_cipher.md R141). -/
def cryptRange (k : Word) (a b : Nat) (m : Memory) : Memory × Word := cryptLoop ((b - a) / 2) a k m

/-- `CryptPKM(seed)`: the blocks region, and the party region restarted from the seed when LEN > 328 (42_cipher.md R143). -/
def cryptPkm (len : Nat) (seed : Word) (m : Memory) : Memory × Word :=
  let blocks := cryptRange seed Config.hdrLen Config.blocksEnd m
  if Config.blocksEnd < len then cryptRange seed Config.blocksEnd len blocks.1 else blocks

/-- DECRYPT's work: un-XOR, then Permute(i) (42_cipher.md R144, 90_conflicts.md C1). -/
def State.decryptArray (s : State) : State :=
  let seed := s.buf.seed
  let plain := cryptPkm s.len seed s.buf
  { s with lcg := plain.2, buf := permute s.rom (shuffleIndex seed) plain.1 }

/-- ENCRYPT's work: Permute(INV[i]), then XOR (42_cipher.md R145). -/
def State.encryptArray (s : State) : State :=
  let seed := s.buf.seed
  let coded := cryptPkm s.len seed (permute s.rom (s.rom.invRow (shuffleIndex seed)) s.buf)
  { s with lcg := coded.2, buf := coded.1 }

/-- CRYPT start, end (42_cipher.md R142). -/
def execCrypt (start stop : Nat) (s : State) : Host.Outcome State Fault Refusal :=
  if s.rangeOk start stop then
    let r := cryptRange s.seed start stop s.buf
    .next (State.complete { s with lcg := r.2, buf := r.1 })
  else .next (s.raise .contractError)

/-- DECRYPT (42_cipher.md R144). -/
def execDecrypt (s : State) : Host.Outcome State Fault Refusal :=
  .next s.decryptArray.complete

/-- ENCRYPT (42_cipher.md R145). -/
def execEncrypt (s : State) : Host.Outcome State Fault Refusal :=
  .next s.encryptArray.complete

/-- DECRYPTED written with `d` (10_state.md R25, 42_cipher.md R146). -/
def State.setDecrypted (d : Bool) (s : State) : State := { s with status := { s.status with decrypted := d } }

/-- DECIF (42_cipher.md R146). -/
def execDecif (s : State) : Host.Outcome State Fault Refusal :=
  .next (State.complete
    (if guardsNonzero s.buf then s.decryptArray.setDecrypted true else s.setDecrypted false))

end Sys2Proof.Machine
end

