-- ==== Sys2Proof/Machine/Dispatch.lean ====
section
/-! DEFINITION. The meaning of each command, one arm per row of the opcode table (30_encoding.md R92). -/

namespace Sys2Proof.Machine

def exec (i : Instr) (s : State) : Host.Outcome State Fault Refusal :=
  match i with
  | .nop => Sys2Proof.Machine.execNop s
  | .getbit addr bit => Sys2Proof.Machine.execGetbit addr bit s
  | .setbit addr bit val => Sys2Proof.Machine.execSetbit addr bit val s
  | .pkclr => Sys2Proof.Machine.execPkclr s
  | .pkapp w => Sys2Proof.Machine.execPkapp w s
  | .unpk off w src => Sys2Proof.Machine.execUnpk off w src s
  | .perm idx sel => Sys2Proof.Machine.execPerm idx sel s
  | .crypt start stop => Sys2Proof.Machine.execCrypt start stop s
  | .decrypt => Sys2Proof.Machine.execDecrypt s
  | .encrypt => Sys2Proof.Machine.execEncrypt s
  | .decif => Sys2Proof.Machine.execDecif s
  | .csum stop => Sys2Proof.Machine.execCsum stop s
  | .csumst stop => Sys2Proof.Machine.execCsumst stop s
  | .csumvf stop => Sys2Proof.Machine.execCsumvf stop s

end Sys2Proof.Machine
end

