-- ==== Sys2Proof/Machine/Port.lean ====
section
/-! DEFINITION. The host port: which register or byte an address names, reads, writes, and the host's turn of a cycle
(20_memory.md R61 to R70, 70_reset_and_hazards.md R205). -/

namespace Sys2Proof.Machine

/-- The registers of the map (10_state.md R22), and the reserved words. -/
inductive Reg where
  | id
  | ctrl
  | status
  | cmd
  | opa
  | seed
  | result
  | acc
  | pos
  | lcg
  | csum
  | reserved
deriving DecidableEq, Repr

/-- What a host access names. -/
inductive Target where
  | reg (r : Reg)
  /-- BUF from offset `a` on (20_memory.md R63). -/
  | window (a : Nat)
  /-- An ERROR response (20_memory.md R64, R65, R66). -/
  | error
deriving DecidableEq, Repr

/-- The bytes of a transaction (20_memory.md R61). -/
def Size.bytes : Size → Nat
  | .byte => 1
  | .half => 2
  | .word => 4

/-- The register at a word-aligned offset below 0x400 (10_state.md R22, R35). -/
def regAt (ofs : Nat) : Reg :=
  if ofs = 0x000 then .id
  else if ofs = 0x004 then .ctrl
  else if ofs = 0x008 then .status
  else if ofs = 0x00C then .cmd
  else if ofs = 0x010 then .opa
  else if ofs = 0x014 then .seed
  else if ofs = 0x018 then .result
  else if ofs = 0x01C then .acc
  else if ofs = 0x020 then .pos
  else if ofs = 0x024 then .lcg
  else if ofs = 0x028 then .csum
  else .reserved

/-- What an access of `n` bytes at `addr` names: registers take aligned 4-byte accesses only (20_memory.md R65), the BUF
window 0x400 to 0x557 naturally aligned ones (R63, R64), the rest is unmapped (R66). -/
def target (addr n : Nat) : Target :=
  if addr < 0x400 then
    if n = 4 ∧ addr % 4 = 0 then .reg (regAt addr) else .error
  else if addr < 0x400 + Config.partyLen then
    if (addr - 0x400) % n = 0 then .window (addr - 0x400) else .error
  else .error

/-- The current value of a register as the port reads it (10_state.md R22 to R35); CMD reads 0 (R27). -/
def State.regValue (s : State) : Reg → Word
  | .id => Config.idValue
  | .ctrl => s.ctrl.toWord
  | .status => s.status.toWord
  | .cmd => 0
  | .opa => s.opa
  | .seed => s.seed
  | .result => s.result
  | .acc => s.acc
  | .pos => BitVec.setWidth 32 s.pos
  | .lcg => s.lcg
  | .csum => BitVec.setWidth 32 s.csum
  | .reserved => 0

/-- How many low bits of a register's read are unspecified while BUSY = 1: none, all 32, or those that are not reserved
(10_state.md R36). -/
def Reg.freeBits : Reg → Nat
  | .result | .acc | .lcg => 32
  | .pos => 6
  | .csum => 16
  | .id | .ctrl | .status | .cmd | .opa | .seed | .reserved => 0

/-- An OK reply with datum `d`. -/
def okReply (d : Word) : Reply := ⟨.ok, d⟩

/-- The ERROR reply: its datum is 0 (20_memory.md R61). -/
def errorReply : Reply := ⟨.error, 0⟩

/-- A read that the spec leaves unspecified while BUSY = 1: the next free value, cut to `bits` bits (10_state.md R36,
20_memory.md R70). -/
def State.drawRead (s : State) (bits : Nat) : State × Reply :=
  ({ s with draws := s.draws + 1 }, okReply (BitVec.ofNat 32 ((Config.busyRead s.draws).toNat % 2 ^ bits)))

/-- `read(addr, size)` (20_memory.md R61, R63, R70, 10_state.md R36). -/
def State.portRead (s : State) (addr n : Nat) : State × Reply :=
  match target addr n with
  | .error => (s, errorReply)
  | .reg r => if s.status.busy && decide (r.freeBits ≠ 0) then s.drawRead r.freeBits else (s, okReply (s.regValue r))
  | .window a => if s.status.busy then s.drawRead (8 * n) else (s, okReply (BitVec.ofNat 32 (s.buf.memRead a n)))

/-- A write that is discarded with ERR_BUSY while BUSY = 1 (60_exceptions.md R173). -/
def State.unlessBusy (s : State) (written : State) : State := if s.status.busy then s.raiseBusy else written

/-- A CMD write is accepted: CMDL and BUSY, and a latency is drawn (10_state.md R27, 60_exceptions.md R170). -/
def State.accept (s : State) (c : Word) : State :=
  { s.latch c (Config.latency s.draws c) with draws := s.draws + 1 }

/-- A write of `d` to a register: STATUS is write-1-to-clear at any time (10_state.md R26); CMD, CTRL, OPA and SEED only
while BUSY = 0 (R24, R27, R28, R29); the others ignore it (R23, R30 to R35). -/
def State.regWrite (s : State) (d : Word) : Reg → State
  | .status => s.clearSticky d
  | .cmd => s.unlessBusy (s.accept d)
  | .ctrl => s.unlessBusy { s with ctrl := Ctrl.ofWord d }
  | .opa => s.unlessBusy { s with opa := d }
  | .seed => s.unlessBusy { s with seed := d }
  | .id | .result | .acc | .pos | .lcg | .csum | .reserved => s

/-- `write(addr, size, data)` (20_memory.md R61, R63, R70). -/
def State.portWrite (s : State) (addr n : Nat) (d : Word) : State × Reply :=
  match target addr n with
  | .error => (s, errorReply)
  | .reg r => (s.regWrite d r, okReply 0)
  | .window a => (s.unlessBusy { s with buf := s.buf.memWrite a n d.toNat }, okReply 0)

/-- One transaction: what it does to the block and what it answers (20_memory.md R61). -/
def State.perform (s : State) : Transaction → State × Reply
  | .read addr size => s.portRead addr.toNat size.bytes
  | .write addr size d => s.portWrite addr.toNat size.bytes d

/-- One transaction, its reply noted. -/
def State.answer (s : State) (t : Transaction) : State :=
  { (s.perform t).1 with replies := (s.perform t).2 :: s.replies }

/-- The host's turn of a cycle: the next event of the inbox (70_reset_and_hazards.md R205). -/
def hostTurn (s : State) : Host.Outcome State Fault Refusal :=
  match s.inbox with
  | [] => .next s
  | .idle :: rest => .next { s with inbox := rest }
  | .transact t :: rest => .next (State.answer { s with inbox := rest } t)
  | .reset :: rest => .next (State.resetEvent { s with inbox := rest })
  | .overlap :: _ => .fault .hostOverlap

/-- A command was in flight when the cycle began (`s`) and the host's turn (`h`) did not abandon it by reset. -/
def inFlight (s h : State) : Bool := s.status.busy && h.status.busy

/-- One of the cycles a command takes before its last (00_scope.md R6, 70_reset_and_hazards.md R203). -/
def State.elapse (s : State) : State := { s with wait := s.wait - 1 }

end Sys2Proof.Machine
end

