-- ==== Sys2Proof/Machine/Step.lean ====
section
/-! DEFINITION. One step is one cycle: the host's event, then the sequencer (10_state.md R20, R26, 60_exceptions.md R170,
R177). -/

namespace Sys2Proof.Machine

/-- The end of the command in CMDL: its meaning, or IllegalCommand (10_state.md R27, 60_exceptions.md R170, R171, R176). -/
def runCommand (s : State) : Host.Outcome State Fault Refusal :=
  match decode s.cmdl with
  | .ok i => exec i s
  | .error _ => .next (s.raise .illegalCommand)

/-- The sequencer's turn of a cycle that began in `s`, after the host's turn `h` (10_state.md R20, 70_reset_and_hazards.md
R203). -/
def sequencerTurn (s h : State) : Host.Outcome State Fault Refusal :=
  if inFlight s h then
    if h.wait = 0 then runCommand h else .next h.elapse
  else .next h

/-- One cycle. An idle block with an idle host keeps all its state (60_exceptions.md R187, log entry 20). -/
def step (s : State) : Host.Outcome State Fault Refusal :=
  match hostTurn s with
  | .next h => sequencerTurn s h
  | .fault f => .fault f
  | .refused r => .refused r

/-- `s` with the command word `w` accepted and its last cycle next, the host idle in that cycle: the next step runs it
(10_state.md R27, log entry 9). -/
def State.withFetchWord (s : State) (nbits w : Nat) : State :=
  { s.latch (BitVec.ofNat 32 (w % 2 ^ nbits)) 0 with inbox := holdHost s.inbox }

end Sys2Proof.Machine
end

