-- ==== Sys2Proof/Machine/HostProgram.lean ====
section
/-! DEFINITION. The host's pseudo-instructions as port transactions and polls (30_encoding.md R100), and a host program's run
(70_reset_and_hazards.md R206). -/

namespace Sys2Proof.Machine

/-- One move of a host program: an event of one cycle, or `WAIT`, the polling of STATUS until BUSY reads 0. -/
inductive HostMove where
  | event (e : HostEvent)
  | poll
deriving DecidableEq, Repr

/-- The pseudo-instructions (30_encoding.md R100); `fill` and `take` are `WRB/WRH/WRW` and `RDB/RDH/RDW`. -/
inductive Pseudo where
  | wr (r : Reg) (v : Word)
  | rd (r : Reg)
  | fill (size : Size) (a : Nat) (v : Word)
  | take (size : Size) (a : Nat)
  | wait
  | issue (i : Instr)
  | pack (elems : List (Word × Nat))
  | xorRange (seed : Word) (a b : Nat)
deriving DecidableEq, Repr

/-- The offset of a register (10_state.md R22); of the reserved words, the first. -/
def Reg.offset : Reg → Nat
  | .id => 0x000
  | .ctrl => 0x004
  | .status => 0x008
  | .cmd => 0x00C
  | .opa => 0x010
  | .seed => 0x014
  | .result => 0x018
  | .acc => 0x01C
  | .pos => 0x020
  | .lcg => 0x024
  | .csum => 0x028
  | .reserved => 0x02C

/-- `WR reg, v` (30_encoding.md R100). -/
def wrEvent (r : Reg) (v : Word) : HostEvent := .transact (.write (BitVec.ofNat 12 r.offset) .word v)

/-- `RD reg` (30_encoding.md R100). -/
def rdEvent (r : Reg) : HostEvent := .transact (.read (BitVec.ofNat 12 r.offset) .word)

/-- `ISSUE cmd` (30_encoding.md R100). -/
def issueMoves (i : Instr) : List HostMove := [.event (wrEvent .cmd (encode i)), .poll]

/-- The elements of `PACK`: `WR OPA, v; ISSUE PKAPP w` for each (30_encoding.md R100). -/
def packMoves : List (Word × Nat) → List HostMove
  | [] => []
  | (v, w) :: rest => .event (wrEvent .opa v) :: issueMoves (.pkapp w) ++ packMoves rest

/-- A pseudo-instruction's expansion (30_encoding.md R100). -/
def Pseudo.expand : Pseudo → List HostMove
  | .wr r v => [.event (wrEvent r v)]
  | .rd r => [.event (rdEvent r)]
  | .fill size a v => [.event (.transact (.write (BitVec.ofNat 12 (0x400 + a)) size v))]
  | .take size a => [.event (.transact (.read (BitVec.ofNat 12 (0x400 + a)) size))]
  | .wait => [.poll]
  | .issue i => issueMoves i
  | .pack elems => issueMoves .pkclr ++ packMoves elems
  | .xorRange seed a b => .event (wrEvent .seed seed) :: issueMoves (.crypt a b)

/-- The last reply's BUSY bit, as `WAIT` reads it (30_encoding.md R100). -/
def lastBusy (s : State) : Bool :=
  match s.replies with
  | [] => false
  | r :: _ => r.data.getLsbD 0

/-- `k` cycles in which the host does nothing. -/
def idleCycles : Nat → State → Host.Outcome State Fault Refusal
  | 0, s => .next s
  | k + 1, s =>
    match step { s with inbox := [] } with
    | .next t => idleCycles k t
    | .fault f => .fault f
    | .refused r => .refused r

/-- The event `e` after `k` idle cycles. -/
def eventAfter (k : Nat) (e : HostEvent) (s : State) : Host.Outcome State Fault Refusal :=
  match idleCycles k s with
  | .next t => step { t with inbox := [e] }
  | .fault f => .fault f
  | .refused r => .refused r

/-- What a move does on the port: `WAIT` reads STATUS (30_encoding.md R100). -/
def HostMove.hostEvent : HostMove → HostEvent
  | .event e => e
  | .poll => rdEvent .status

/-- The move is a write to CMD: the host issues a command (10_state.md R27). -/
def HostMove.issues : HostMove → Bool
  | .event (.transact (.write addr .word _)) => decide (addr.toNat = Reg.offset .cmd)
  | .event _ => false
  | .poll => false

/-- The move reads STATUS. -/
def HostMove.readsStatus (m : HostMove) : Bool := decide (m.hostEvent = rdEvent .status)

/-- The moves left after `m`: `WAIT` polls again while BUSY reads 1 (30_encoding.md R100). -/
def HostMove.next (m : HostMove) (rest : List HostMove) (t : State) : List HostMove :=
  match m with
  | .event _ => rest
  | .poll => if lastBusy t then .poll :: rest else rest

/-- Where a host program's run stands (70_reset_and_hazards.md R206). -/
inductive HostRun where
  /-- The host has issued its last command and has then read STATUS with BUSY = 0: the state at that read. -/
  | over (t : State)
  /-- No move or no gap is left before that read. -/
  | unfinished (t : State)
deriving DecidableEq, Repr

/-- The move `m`, just made with the outcome `t`, ends the run: it read STATUS with BUSY = 0, a command has been issued and
no move left issues one (70_reset_and_hazards.md R206, log entry 21). -/
def endsRun (issued : Bool) (m : HostMove) (rest : List HostMove) (t : State) : Bool :=
  issued && !rest.any HostMove.issues && m.readsStatus && !lastBusy t

/-- A host program's run from `s`, `issued` saying whether it has issued a command before. `gaps` says how many idle cycles
come before each of its transactions, so that every interleaving of the host's steps with the end of a command is the run of
some `gaps` (70_reset_and_hazards.md R203, R206). -/
def runFrom (issued : Bool) : List Nat → List HostMove → State → Host.Outcome HostRun Fault Refusal
  | _, [], s => .next (.unfinished s)
  | [], _ :: _, s => .next (.unfinished s)
  | k :: gaps, m :: rest, s =>
    match eventAfter k m.hostEvent s with
    | .next t =>
      if endsRun (issued || m.issues) m rest t then .next (.over t)
      else runFrom (issued || m.issues) gaps (m.next rest t) t
    | .fault f => .fault f
    | .refused r => .refused r

/-- A host program's run from its first move (70_reset_and_hazards.md R206). -/
def runMoves (gaps : List Nat) (moves : List HostMove) (s : State) : Host.Outcome HostRun Fault Refusal :=
  runFrom false gaps moves s

end Sys2Proof.Machine
end

