-- ==== Sys2Proof/Safety.lean ====
section
/-! DEFINITION. What counts as a safe run, in the terms claims use (60_exceptions.md R188), the launch premise
(70_reset_and_hazards.md R193), what a run shows at its end (R206), and the invariant of the block. -/

namespace Sys2Proof.Machine

/-- No ERR bit is set (60_exceptions.md R188). -/
def State.noErr (s : State) : Bool :=
  !s.status.errIllegal && !s.status.errContract && !s.status.errBusy

/-- No transaction has got an ERROR response (60_exceptions.md R174, R188). -/
def State.noBusError (s : State) : Bool := s.replies.all fun r => decide (r.response = .ok)

/-- The premise of a claim about a host program: no fault is recorded, in the block or on the port (60_exceptions.md R188). -/
def State.safe (s : State) : Bool := s.noErr && s.noBusError

/-- `PK8CB_Clean` (70_reset_and_hazards.md R193): no command in flight, no fault recorded, DONE = 0, CTRL.FORM is the stated
`form` and `BUF[0..LEN-1]` holds the stated `bytes`. Every other register is left free. -/
def State.clean (s : State) (form : Bool) (bytes : List Byte) : Bool :=
  !s.status.busy && s.noErr && !s.status.done && decide (s.ctrl.form = form)
    && decide ((List.range s.len).map s.buf.get = bytes)

/-- What a run shows at its end: every register of the map as the port reads it (10_state.md R22) and `BUF[0..LEN-1]`
(70_reset_and_hazards.md R206). -/
structure Observation where
  id : Word
  ctrl : Word
  status : Word
  cmd : Word
  opa : Word
  seed : Word
  result : Word
  acc : Word
  pos : Word
  lcg : Word
  csum : Word
  bytes : List Byte
deriving DecidableEq, Repr

/-- The registers and the buffer as they stand (70_reset_and_hazards.md R206). -/
def State.observe (s : State) : Observation where
  id := s.regValue .id
  ctrl := s.regValue .ctrl
  status := s.regValue .status
  cmd := s.regValue .cmd
  opa := s.regValue .opa
  seed := s.regValue .seed
  result := s.regValue .result
  acc := s.regValue .acc
  pos := s.regValue .pos
  lcg := s.regValue .lcg
  csum := s.regValue .csum
  bytes := (List.range s.len).map s.buf.get

/-- The observation of a run: the block's state at the read that ended it; a run that is not over has none
(70_reset_and_hazards.md R206). -/
def HostRun.observation : HostRun → Option Observation
  | .over t => some t.observe
  | .unfinished _ => none

/-- The invariant of the block: BUF is in its canonical form, POS is at most 32 (10_state.md R32), every bit of ACC at POS or
above is 0 (R31), and the ROM's tables meet the constraints (41_permute.md R133). -/
abbrev State.Inv (s : State) : Prop :=
  s.buf.wf = true ∧ s.pos.toNat ≤ 32 ∧ s.acc.toNat < 2 ^ s.pos.toNat ∧ s.rom.admissible = true

end Sys2Proof.Machine
end

