-- ==== Sys2Proof/Certificates/Slice0/Obligations.lean ====
section
/-! DEFINITION. The statements for the provers: what each command, the host port, reset and the whole block do, from the
numbered rules of the spec. -/

open Sys2Proof Sys2Proof.Machine

namespace Sys2Proof.Claims

/-- STATUS after a normal completion (60_exceptions.md R170). -/
def finished (st : Status) : Status := { st with done := true, busy := false }

/-- `s` after a ContractError (60_exceptions.md R172). -/
def contractFailed (s : State) : State :=
  { s with status := { s.status with errContract := true, done := true, busy := false } }

/-- `s` after an IllegalCommand (60_exceptions.md R171). -/
def illegalFailed (s : State) : State :=
  { s with status := { s.status with errIllegal := true, done := true, busy := false } }

/-- `s` after a discarded write (60_exceptions.md R173). -/
def busyFailed (s : State) : State := { s with status := { s.status with errBusy := true } }

/-- Every word with `c & mask == match` is the command that `build` reads from its fields (30_encoding.md R82, R92). -/
def Encoded (mask value : Word) (build : Word → Instr) : Prop :=
  ∀ c : Word, c &&& mask = value → decode c = .ok (build c)

/-- The OP values that are assigned (30_encoding.md R93). -/
def assignedOps : List Nat := [0x00, 0x01, 0x02, 0x03, 0x04, 0x05, 0x10, 0x20, 0x21, 0x22, 0x23, 0x30]

/-- Illegal by 30_encoding.md R94 (unassigned OP), R96 (CSUM with MODE = 3) or R95 (no row of R92 matches). -/
def Illegal (c : Word) : Prop :=
  fld c 7 0 ∉ assignedOps ∨ (fld c 7 0 = 0x30 ∧ fld c 18 17 = 3) ∨ ∀ r ∈ opcodeMap, c &&& r.mask ≠ r.value

/-- The conditions of the table of 60_exceptions.md R172. -/
def Violates (s : State) : Instr → Prop
  | .getbit addr _ => s.len ≤ addr
  | .setbit addr _ _ => s.len ≤ addr
  | .pkapp w => w = 0 ∨ 32 < s.pos.toNat + w
  | .unpk off w _ => w = 0 ∨ 32 < off + w
  | .crypt start stop => stop ≤ start ∨ s.len < stop ∨ (stop - start) % 2 = 1
  | .csum stop => stop < 8 ∨ s.len < stop ∨ stop % 2 = 1
  | .csumst stop => stop < 8 ∨ s.len < stop ∨ stop % 2 = 1
  | .csumvf stop => stop < 8 ∨ s.len < stop ∨ stop % 2 = 1
  | .nop => False
  | .pkclr => False
  | .perm _ _ => False
  | .decrypt => False
  | .encrypt => False
  | .decif => False

/-- A host access that gets an ERROR response: a register by other than an aligned word (20_memory.md R65), a misaligned
window access (R64), an unmapped address (R66). -/
def BadAccess (addr n : Nat) : Prop :=
  (addr < 0x400 ∧ (n ≠ 4 ∨ addr % 4 ≠ 0)) ∨ (0x400 ≤ addr ∧ addr < 0x558 ∧ (addr - 0x400) % n ≠ 0) ∨ 0x558 ≤ addr

/-- A host access to `addr` is a write to CMD, CTRL, OPA, SEED or the BUF window (60_exceptions.md R173). -/
def GuardedWrite (addr n : Nat) : Prop :=
  ¬BadAccess addr n ∧ (addr = 0x004 ∨ addr = 0x00C ∨ addr = 0x010 ∨ addr = 0x014 ∨ 0x400 ≤ addr)

/-- A 32-bit read of the register at `ofs`. -/
def readWord (ofs : Nat) : Transaction := .read (BitVec.ofNat 12 ofs) .word

/-- A 32-bit write of `d` to the register at `ofs`. -/
def writeWord (ofs : Nat) (d : Word) : Transaction := .write (BitVec.ofNat 12 ofs) .word d

/-- The word that the host's event writes to STATUS, 0 if it writes none. -/
def statusWritten : Option HostEvent → Word
  | some (.transact (.write addr .word d)) => if addr = 0x008 then d else 0
  | _ => 0

/-- `WR OPA, v; PKAPP w` for each element, in order (40_bitfield.md R116). -/
def appendAll : List (Word × Nat) → State → Host.Outcome State Fault Refusal
  | [], s => .next s
  | (v, w) :: rest, s =>
    match exec (.pkapp w) { s with opa := v } with
    | .next t => appendAll rest t
    | .fault f => .fault f
    | .refused r => .refused r

/-- `PKCLR`, then the elements (40_bitfield.md R116). -/
def packAll (elems : List (Word × Nat)) (s : State) : Host.Outcome State Fault Refusal :=
  match exec .pkclr s with
  | .next t => appendAll elems t
  | .fault f => .fault f
  | .refused r => .refused r

/-- The widths' sum. -/
def totalWidth (elems : List (Word × Nat)) : Nat := (elems.map Prod.snd).sum

/-- `OR over i of min(vi, 2^wi - 1) << (w1 + ... + w(i-1))`, from position `p` on (40_bitfield.md R116). -/
def packOr (p : Nat) : List (Word × Nat) → Nat
  | [] => 0
  | (v, w) :: rest => (min v.toNat (2 ^ w - 1) <<< p) ||| packOr (p + w) rest

/-- Every byte of BUF reads the same. -/
def SameBytes (m m' : Memory) : Prop := ∀ x, m.get x = m'.get x

/-- The u16 word of `m` at `a`, little-endian (20_memory.md R62). -/
def u16 (m : Memory) (a : Nat) : Nat := (m.get a).toNat + 256 * (m.get (a + 1)).toNat

/-- The u32 seed of `m` at bytes 0 to 3, little-endian (20_memory.md R62). -/
def seedOf (m : Memory) : Nat :=
  (m.get 0).toNat + 256 * (m.get 1).toNat + 65536 * (m.get 2).toNat + 16777216 * (m.get 3).toNat

/-- The byte at `x` XORed as `CryptPKM` XORs it at the given LEN (42_cipher.md R143). -/
def cryptedByte (len : Nat) (seed : Word) (m : Memory) (x : Nat) : Byte :=
  if 8 ≤ x ∧ x < 328 then m.get x ^^^ keyAt seed (x - 8)
  else if 328 ≤ x ∧ x < len then m.get x ^^^ keyAt seed (x - 328)
  else m.get x

/-- The state after the last step of `CryptPKM`: 160 steps at LEN = 328, 8 from the seed again at 344 (42_cipher.md R143). -/
def cryptedState (len : Nat) (seed : Word) : Word := lcgStep^[if len = 344 then 8 else 160] seed

/-- `t` is the outcome of DECRYPT's work on `s`, with STATUS `st`: byte `k` of sub-block `blk` is the un-XORed byte `k` of
sub-block `FWD[4i + blk]`, the other bytes are un-XORed in place, and LCG is the last state (42_cipher.md R144). -/
def Decrypted (s t : State) (st : Status) : Prop :=
  let seed := BitVec.ofNat 32 (seedOf s.buf)
  t = { s with buf := t.buf, lcg := cryptedState s.len seed, status := st } ∧
  (∀ blk < 4, ∀ k < 80, t.buf.get (8 + 80 * blk + k) =
    cryptedByte s.len seed s.buf (8 + 80 * s.rom.row (seed.toNat / 8192 % 32) blk + k)) ∧
  ∀ x, x < 8 ∨ 328 ≤ x → t.buf.get x = cryptedByte s.len seed s.buf x

end Sys2Proof.Claims

open Sys2Proof.Claims

/-! ## Encoding -/

/-- Decode and encode agree: no bit of an operand is dropped (30_encoding.md R82, R92). -/
def Obligations.DecodeOfEncodeIsTheCommand : Prop :=
  ∀ i : Instr, i.wf = true → decode (encode i) = .ok i

/-- Every legal word is the encoding of the one well-formed command it decodes to (30_encoding.md R92, R95, R97). -/
def Obligations.EncodeOfDecodeIsTheWord : Prop :=
  ∀ (c : Word) (i : Instr), decode c = .ok i → i.wf = true ∧ encode i = c

/-- A word is a row's command iff `c & mask == match`, and no two rows overlap (30_encoding.md R92). -/
def Obligations.WordIsTheCommandOfItsRow : Prop :=
  (∀ c : Word, ∀ r ∈ opcodeMap, c &&& r.mask = r.value ↔ ∃ i, decode c = .ok i ∧ i.mnemonic = r.mnemonic) ∧
  ∀ c : Word, ∀ r ∈ opcodeMap, ∀ r' ∈ opcodeMap, c &&& r.mask = r.value → c &&& r'.mask = r'.value → r = r'

/-- An illegal word ends its command with ERR_ILLEGAL, DONE and BUSY = 0 and no other effect (30_encoding.md R94, R95, R96,
60_exceptions.md R171). -/
def Obligations.IllegalWordRecordsErrIllegalOnly : Prop :=
  ∀ s : State, Illegal s.cmdl → runCommand s = .next (illegalFailed s) ∧
    (s.status.busy = true → s.wait = 0 → s.inbox = [] → step s = .next (illegalFailed s))

/-- Words written out in the spec decode to the commands the spec names (95_test_vectors.md 2.1). -/
def Obligations.WordsOfTheSpecDecode : Prop :=
  decode 0x09021002 = .ok (.setbit 0x10 9 true) ∧ decode 0x00054A05 = .ok (.unpk 10 5 .acc) ∧
  decode 0x00002310 = .ok (.perm 3 .inverse) ∧ decode 0x02B14820 = .ok (.crypt 328 344) ∧
  decode 0x00034830 = .ok (.csumst 328) ∧ decode 0x00074830 = .error .checksumMode3

/-! ## The step -/

/-- In the last cycle of a command in flight, step runs the decoded command on the state after the host's event of that
cycle; and from the state that `withFetchWord` sets up it runs the word it was given (10_state.md R27, 60_exceptions.md
R170). That the host's event of the last cycle comes before the command's end is the model's order (log entry 7), and
`withFetchWord` is the model's stand-in for the CMD write (log entry 9). -/
def Obligations.StepRunsTheDecodedCommand : Prop :=
  (∀ (s : State) (i : Instr), s.status.busy = true → s.wait = 0 → decode s.cmdl = .ok i →
    (s.inbox = [] → step s = exec i s) ∧
    (∀ rest, s.inbox = .idle :: rest → step s = exec i { s with inbox := rest }) ∧
    ∀ t rest, s.inbox = .transact t :: rest → step s = exec i (State.answer { s with inbox := rest } t)) ∧
  ∀ (s : State) (nbits w : Nat) (i : Instr), s.inbox = [] → decodeTableWord nbits w = some i →
    step (s.withFetchWord nbits w) = exec i (s.withFetchWord nbits w)

/-- Every accepted command ends: while no reset and no overlap comes, the block is busy for exactly `wait` more cycles and
after the next one BUSY is 0 and DONE is 1 (60_exceptions.md R170, 70_reset_and_hazards.md R203). That one step is one cycle
and that the free latency is counted down in `wait` is the model's choice (log entry 3); the spec says only that the command
ends after finitely many cycles. -/
def Obligations.AcceptedCommandEnds : Prop :=
  ∀ s : State, s.status.busy = true → (∀ e ∈ s.inbox.take (s.wait + 1), e ≠ .reset ∧ e ≠ .overlap) →
    (∀ k ≤ s.wait, ∃ u : State, Sys2Proof.core.run k s = .next u ∧ u.status.busy = true) ∧
    ∃ t : State, Sys2Proof.core.run (s.wait + 1) s = .next t ∧ t.status.busy = false ∧ t.status.done = true

/-- While a command is in flight no host transaction changes what the command reads: the latch, CTRL, OPA, SEED, ACC, POS,
every byte of BUF and the ROM; in the cycles before its last, and in its last, in which it runs on the state after the host's
transaction (20_memory.md R75; that `wait` counts the cycles is the model's choice, log entry 3, and the order inside the last
cycle too, log entry 7). -/
def Obligations.CommandReadsTheAcceptedState : Prop :=
  (∀ s t : State, s.status.busy = true → s.wait ≠ 0 → s.inbox.head? ≠ some .reset → step s = .next t →
    t.status.busy = true ∧ t.wait = s.wait - 1 ∧ t.cmdl = s.cmdl ∧ t.ctrl = s.ctrl ∧ t.opa = s.opa ∧ t.seed = s.seed ∧
    t.acc = s.acc ∧ t.pos = s.pos ∧ t.buf = s.buf ∧ t.rom = s.rom) ∧
  ∀ (s : State) (tr : Transaction) (rest : List HostEvent), s.status.busy = true → s.inbox = .transact tr :: rest →
    let h := State.answer { s with inbox := rest } tr
    h.status.busy = true ∧ h.wait = s.wait ∧ h.cmdl = s.cmdl ∧ h.ctrl = s.ctrl ∧ h.opa = s.opa ∧ h.seed = s.seed ∧
    h.acc = s.acc ∧ h.pos = s.pos ∧ h.buf = s.buf ∧ h.rom = s.rom ∧ (s.wait = 0 → step s = runCommand h)

/-- An idle block with an idle host keeps all its state (60_exceptions.md R187). -/
def Obligations.IdleBlockKeepsItsState : Prop :=
  ∀ s : State, s.status.busy = false →
    (s.inbox = [] → step s = .next s) ∧ ∀ rest, s.inbox = .idle :: rest → step s = .next { s with inbox := rest }

/-- An overlap of the host's transactions stops the model by name, and nothing else does (70_reset_and_hazards.md R205; log
entry 10). -/
def Obligations.OnlyHostOverlapStops : Prop :=
  ∀ s : State, (s.inbox.head? = some .overlap → step s = .fault .hostOverlap) ∧
    (s.inbox.head? ≠ some .overlap → ∃ t, step s = .next t)

/-! ## Reset -/

/-- What reset leaves, in the initial state and after the reset event in any state, a command in flight or not: every
register at its reset value, LEN 328, `irq` low, DONE not set, every byte of BUF unspecified, the ROM unaffected by the event
(70_reset_and_hazards.md R190; a byte that reset leaves is the model's free value, log entry 2). -/
def Obligations.ResetLeavesTheResetValues : Prop :=
  let AtReset := fun (t : State) =>
    t.regValue .id = 0x504B3801 ∧ t.regValue .ctrl = 0 ∧ t.regValue .status = 0 ∧ t.regValue .opa = 0 ∧
    t.regValue .seed = 0 ∧ t.regValue .result = 0 ∧ t.regValue .acc = 0 ∧ t.regValue .pos = 0 ∧ t.regValue .lcg = 0 ∧
    t.regValue .csum = 0 ∧ t.len = 328 ∧ t.irq = false
  AtReset State.reset ∧ (∀ x, State.reset.buf.get x = Config.powerOnByte 0 x) ∧
  ∀ (s : State) (rest : List HostEvent), s.inbox = .reset :: rest → ∃ t, step s = .next t ∧ AtReset t ∧ t.inbox = rest ∧
    t.rom = s.rom ∧ ∀ x, t.buf.get x = Config.powerOnByte (s.buf.epoch + 1) x

/-- The invariant holds at reset, where the ROM has its default contents (10_state.md R31, R32, 41_permute.md R133; the
contents are PRESUMED, log entry 5). -/
def Obligations.ResetMeetsTheInvariant : Prop := State.reset.Inv

/-- Every step keeps the invariant: BUF in canonical form, POS at most 32, no bit of ACC at POS or above, ROM tables that meet
the constraints; and no step writes the ROM (10_state.md R31, R32, R44, 41_permute.md R133). -/
def Obligations.StepKeepsTheInvariant : Prop :=
  ∀ s t : State, step s = .next t → t.rom = s.rom ∧ (s.Inv → t.Inv)

/-! ## The host port -/

/-- A misaligned, wrong-size or unmapped access gets ERROR with datum 0 and changes no state, not even a STATUS bit; every
other access gets OK, and one at the window lies wholly inside it (20_memory.md R64, R65, R66, 60_exceptions.md R174). -/
def Obligations.BadAccessGetsErrorAndChangesNothing : Prop :=
  ∀ (s : State) (addr : BitVec 12) (size : Size) (d : Word),
    (BadAccess addr.toNat size.bytes →
      s.perform (.read addr size) = (s, ⟨.error, 0⟩) ∧ s.perform (.write addr size d) = (s, ⟨.error, 0⟩)) ∧
    (¬BadAccess addr.toNat size.bytes →
      (s.perform (.read addr size)).2.response = .ok ∧ (s.perform (.write addr size d)).2 = ⟨.ok, 0⟩ ∧
      (0x400 ≤ addr.toNat → addr.toNat + size.bytes ≤ 0x558))

/-- An aligned access of the BUF window while BUSY = 0: byte `a + k` travels on bits `8k+7:8k`, a write changes those bytes
and nothing else (20_memory.md R63). -/
def Obligations.WindowIsLittleEndian : Prop :=
  ∀ (s : State) (a : Nat) (size : Size) (d : Word), s.status.busy = false → a < 344 → a % size.bytes = 0 →
    (∃ v : Word, s.perform (.read (BitVec.ofNat 12 (0x400 + a)) size) = (s, ⟨.ok, v⟩) ∧ v.toNat < 256 ^ size.bytes ∧
      ∀ k < size.bytes, v.toNat / 256 ^ k % 256 = (s.buf.get (a + k)).toNat) ∧
    ∃ m : Memory, s.perform (.write (BitVec.ofNat 12 (0x400 + a)) size d) = ({ s with buf := m }, ⟨.ok, 0⟩) ∧
      (∀ k < size.bytes, (m.get (a + k)).toNat = d.toNat / 256 ^ k % 256) ∧
      ∀ x, x < a ∨ a + size.bytes ≤ x → m.get x = s.buf.get x

/-- A write to CMD, CTRL, OPA, SEED or the BUF window while BUSY = 1 is discarded, sets ERR_BUSY and nothing else, and gets
OK (60_exceptions.md R173). -/
def Obligations.BusyWriteIsDiscarded : Prop :=
  ∀ (s : State) (addr : BitVec 12) (size : Size) (d : Word), s.status.busy = true →
    GuardedWrite addr.toNat size.bytes → s.perform (.write addr size d) = (busyFailed s, ⟨.ok, 0⟩)

/-- Reads have no side effect on the block. ID, CTRL, STATUS, OPA and SEED read their current values at all times; RESULT,
ACC, POS, LCG and CSUM while BUSY = 1 read a free value, the reserved bits of POS and CSUM still 0 (10_state.md R36; the
free value and its draw counter are the model's, log entry 6). -/
def Obligations.ReadsHaveNoSideEffect : Prop :=
  ∀ s : State,
    (∀ (addr : BitVec 12) (size : Size), (s.perform (.read addr size)).1 = s ∨
      (s.status.busy = true ∧ (s.perform (.read addr size)).1 = { s with draws := s.draws + 1 })) ∧
    s.perform (readWord 0x000) = (s, ⟨.ok, 0x504B3801⟩) ∧ s.perform (readWord 0x004) = (s, ⟨.ok, s.ctrl.toWord⟩) ∧
    s.perform (readWord 0x008) = (s, ⟨.ok, s.status.toWord⟩) ∧ s.perform (readWord 0x010) = (s, ⟨.ok, s.opa⟩) ∧
    s.perform (readWord 0x014) = (s, ⟨.ok, s.seed⟩) ∧
    (s.status.busy = true →
      (∀ ofs, ofs = 0x018 ∨ ofs = 0x01C ∨ ofs = 0x024 →
        (s.perform (readWord ofs)).2 = ⟨.ok, Config.busyRead s.draws⟩) ∧
      (s.perform (readWord 0x020)).2.data.toNat = (Config.busyRead s.draws).toNat % 64 ∧
      (s.perform (readWord 0x028)).2.data.toNat = (Config.busyRead s.draws).toNat % 65536)

/-- While BUSY = 0 the result registers read their values, POS and CSUM with zeros above their implemented bits
(10_state.md R30 to R34). -/
def Obligations.IdleReadsGiveTheResults : Prop :=
  ∀ s : State, s.status.busy = false →
    s.perform (readWord 0x018) = (s, ⟨.ok, s.result⟩) ∧ s.perform (readWord 0x01C) = (s, ⟨.ok, s.acc⟩) ∧
    s.perform (readWord 0x024) = (s, ⟨.ok, s.lcg⟩) ∧
    (∃ v : Word, s.perform (readWord 0x020) = (s, ⟨.ok, v⟩) ∧ v.toNat = s.pos.toNat ∧ v.toNat < 64) ∧
    ∃ v : Word, s.perform (readWord 0x028) = (s, ⟨.ok, v⟩) ∧ v.toNat = s.csum.toNat ∧ v.toNat < 65536

/-- ID reads its constant and ignores writes with OK, and so do RESULT, ACC, POS, LCG and CSUM; the reserved words read 0 and
ignore writes, and any other access there gets ERROR; all of it BUSY or not (10_state.md R23, R35). -/
def Obligations.ReadOnlyAndReservedWordsIgnoreWrites : Prop :=
  ∀ (s : State) (d : Word), s.perform (readWord 0x000) = (s, ⟨.ok, 0x504B3801⟩) ∧
    (∀ ofs, ofs = 0x000 ∨ ofs = 0x018 ∨ ofs = 0x01C ∨ ofs = 0x020 ∨ ofs = 0x024 ∨ ofs = 0x028 →
      s.perform (writeWord ofs d) = (s, ⟨.ok, 0⟩)) ∧
    ∀ addr : BitVec 12, 0x02C ≤ addr.toNat → addr.toNat ≤ 0x3FF →
      (addr.toNat % 4 = 0 → s.perform (.read addr .word) = (s, ⟨.ok, 0⟩) ∧
        s.perform (.write addr .word d) = (s, ⟨.ok, 0⟩)) ∧
      ∀ size : Size, addr.toNat % 4 ≠ 0 ∨ size ≠ .word →
        s.perform (.read addr size) = (s, ⟨.error, 0⟩) ∧ s.perform (.write addr size d) = (s, ⟨.error, 0⟩)

/-- A STATUS write clears exactly those of bits 1 to 5 that it writes 1 to, at any time; where a command ends in the same
cycle and sets one of them, the set wins (10_state.md R26). -/
def Obligations.StatusWriteClearsAndSetWins : Prop :=
  ∀ (s : State) (d : Word),
    (s.perform (writeWord 0x008 d) = ({ s with status :=
      { s.status with
        done := s.status.done && !d.getLsbD 1, errIllegal := s.status.errIllegal && !d.getLsbD 2
        errContract := s.status.errContract && !d.getLsbD 3, errBusy := s.status.errBusy && !d.getLsbD 4
        clamp := s.status.clamp && !d.getLsbD 5 } }, ⟨.ok, 0⟩)) ∧
    ∀ rest, s.inbox = .transact (writeWord 0x008 d) :: rest → s.status.busy = true → s.wait = 0 →
      ∃ t, step s = .next t ∧ t.status.busy = false ∧ t.status.done = true ∧
        t.status.errBusy = (s.status.errBusy && !d.getLsbD 4) ∧
        (Illegal s.cmdl → t.status.errIllegal = true) ∧
        (∀ i, decode s.cmdl = .ok i → Violates s i → t.status.errContract = true) ∧
        ∀ w, decode s.cmdl = .ok (.pkapp w) → ¬Violates s (.pkapp w) → 2 ^ w - 1 < s.opa.toNat → t.status.clamp = true

/-- A discarded write and the end of the running command in one cycle are both recorded (60_exceptions.md R177; the order inside a cycle is the model's, log entry 7). -/
def Obligations.SameCycleEventsAreBothRecorded : Prop :=
  ∀ (s : State) (addr : BitVec 12) (size : Size) (d : Word) (rest : List HostEvent), s.status.busy = true → s.wait = 0 →
    GuardedWrite addr.toNat size.bytes → s.inbox = .transact (.write addr size d) :: rest →
    ∃ t, step s = .next t ∧ t.status.errBusy = true ∧ t.status.done = true ∧ t.status.busy = false ∧
      (Illegal s.cmdl → t.status.errIllegal = true) ∧
      ∀ i, decode s.cmdl = .ok i → Violates s i → t.status.errContract = true

/-- A CMD write while BUSY = 0 latches the word and sets BUSY and does nothing else in its cycle; while BUSY = 1 it is
discarded with ERR_BUSY; a read of CMD returns 0 and changes nothing (10_state.md R27). -/
def Obligations.CmdWriteLatchesTheCommand : Prop :=
  ∀ (s : State) (c : Word),
    (s.status.busy = false → ∀ rest, s.inbox = .transact (writeWord 0x00C c) :: rest →
      ∃ wait, step s = .next { s with
        cmdl := c, wait := wait, draws := s.draws + 1, inbox := rest, replies := ⟨.ok, 0⟩ :: s.replies
        status := { s.status with busy := true } }) ∧
    (s.status.busy = true → s.perform (writeWord 0x00C c) = (busyFailed s, ⟨.ok, 0⟩)) ∧
    s.perform (readWord 0x00C) = (s, ⟨.ok, 0⟩)

/-- Writes of CTRL, OPA and SEED while BUSY = 0: CTRL keeps bits 1:0 and reads back `d & 3`, FORM selects LEN; OPA and SEED
keep all 32 bits; nothing else changes (10_state.md R24, R28, R29, R42). -/
def Obligations.OperandRegistersTakeTheWrite : Prop :=
  ∀ (s : State) (d : Word), s.status.busy = false →
    (∃ t, s.perform (writeWord 0x004 d) = (t, ⟨.ok, 0⟩) ∧ t = { s with ctrl := t.ctrl } ∧
      t.perform (readWord 0x004) = (t, ⟨.ok, d &&& 3⟩) ∧ t.len = if d.getLsbD 0 then 344 else 328) ∧
    s.perform (writeWord 0x010 d) = ({ s with opa := d }, ⟨.ok, 0⟩) ∧
    s.perform (writeWord 0x014 d) = ({ s with seed := d }, ⟨.ok, 0⟩)

/-- `irq` is IRQ_EN and any of bits 1 to 4 of STATUS as the port reads them; it is low after reset; CLAMP, MISMATCH and
DECRYPTED do not drive it (10_state.md R49). -/
def Obligations.IrqFollowsTheStatusWord : Prop :=
  (∀ s : State, s.irq = ((s.regValue .ctrl).getLsbD 1 &&
    ((s.regValue .status).getLsbD 1 || (s.regValue .status).getLsbD 2 || (s.regValue .status).getLsbD 3 ||
      (s.regValue .status).getLsbD 4))) ∧
  State.reset.irq = false ∧
  ∀ (s : State) (c m d : Bool), State.irq { s with status := { s.status with clamp := c, mismatch := m, decrypted := d } }
    = s.irq

/-- Where each bit of STATUS stands; bits 31:8 read 0 (10_state.md R25). -/
def Obligations.StatusBitsStandWhereTheSpecSays : Prop :=
  ∀ (s : State) (j : Nat), (s.regValue .status).getLsbD j =
    if j = 0 then s.status.busy else if j = 1 then s.status.done else if j = 2 then s.status.errIllegal
    else if j = 3 then s.status.errContract else if j = 4 then s.status.errBusy else if j = 5 then s.status.clamp
    else if j = 6 then s.status.mismatch else if j = 7 then s.status.decrypted else false

/-! ## How a command ends, and what it may write -/

/-- A command that breaks its contract ends with ERR_CONTRACT, DONE and BUSY = 0 and no other effect (60_exceptions.md
R172). -/
def Obligations.ContractErrorIsTheOnlyEffect : Prop :=
  ∀ (s : State) (i : Instr), Violates s i → exec i s = .next (contractFailed s)

/-- Every command ends, and a register or flag is written by its own commands only: OPA, SEED, CTRL and the ROM by none, RESULT by
GETBIT and UNPK, ACC and POS by PKCLR and PKAPP, CLAMP by PKAPP, LCG by the cipher commands, CSUM by the checksum commands,
MISMATCH by CSUMVF, DECRYPTED by DECIF, BUF by SETBIT, PERM, the cipher commands and CSUMST (10_state.md R25, R28 to R34,
20_memory.md R71). -/
def Obligations.OnlyTheOwnerWritesARegister : Prop :=
  ∀ (s : State) (i : Instr), ∃ t, exec i s = .next t ∧ t.status.busy = false ∧ t.status.done = true ∧
    t.status.errBusy = s.status.errBusy ∧ t.status.errIllegal = s.status.errIllegal ∧
    t.ctrl = s.ctrl ∧ t.opa = s.opa ∧ t.seed = s.seed ∧ t.cmdl = s.cmdl ∧ t.wait = s.wait ∧ t.draws = s.draws ∧
    t.inbox = s.inbox ∧ t.replies = s.replies ∧ t.buf.epoch = s.buf.epoch ∧ t.rom = s.rom ∧
    (i.mnemonic ∉ ["GETBIT", "UNPK"] → t.result = s.result) ∧
    (i.mnemonic ∉ ["PKCLR", "PKAPP"] → t.acc = s.acc ∧ t.pos = s.pos) ∧
    (i.mnemonic ≠ "PKAPP" → t.status.clamp = s.status.clamp) ∧
    (i.mnemonic ∉ ["CRYPT", "DECRYPT", "ENCRYPT", "DECIF"] → t.lcg = s.lcg) ∧
    (i.mnemonic ∉ ["CSUM", "CSUMST", "CSUMVF"] → t.csum = s.csum) ∧
    (i.mnemonic ≠ "CSUMVF" → t.status.mismatch = s.status.mismatch) ∧
    (i.mnemonic ≠ "DECIF" → t.status.decrypted = s.status.decrypted) ∧
    (i.mnemonic ∉ ["SETBIT", "PERM", "CRYPT", "DECRYPT", "ENCRYPT", "DECIF", "CSUMST"] → t.buf = s.buf)

/-- A command sets at most one of ERR_ILLEGAL and ERR_CONTRACT; an illegal word never the second, a legal word never the
first; and neither an illegal word nor a command that breaks its contract changes CLAMP, whatever error bits were set before
(60_exceptions.md R176). -/
def Obligations.OneErrorAtMost : Prop :=
  ∀ s : State, ∃ t, runCommand s = .next t ∧
    (t.status.errIllegal = s.status.errIllegal ∨ t.status.errContract = s.status.errContract) ∧
    (t.status.errIllegal ≠ s.status.errIllegal ∨ t.status.errContract ≠ s.status.errContract →
      t.status.clamp = s.status.clamp) ∧
    (Illegal s.cmdl → t.status.errContract = s.status.errContract ∧ t.status.clamp = s.status.clamp) ∧
    ∀ i, decode s.cmdl = .ok i → t.status.errIllegal = s.status.errIllegal ∧
      (Violates s i → t.status.errContract = true ∧ t.status.clamp = s.status.clamp)

/-- DONE, the ERR bits and CLAMP stay set until the host writes 1 to them or asserts reset: no other step clears one
(60_exceptions.md R179). -/
def Obligations.StickyBitsStaySet : Prop :=
  ∀ s t : State, step s = .next t → s.inbox.head? ≠ some .reset →
    (s.status.done = true → (statusWritten s.inbox.head?).getLsbD 1 = false → t.status.done = true) ∧
    (s.status.errIllegal = true → (statusWritten s.inbox.head?).getLsbD 2 = false → t.status.errIllegal = true) ∧
    (s.status.errContract = true → (statusWritten s.inbox.head?).getLsbD 3 = false → t.status.errContract = true) ∧
    (s.status.errBusy = true → (statusWritten s.inbox.head?).getLsbD 4 = false → t.status.errBusy = true) ∧
    (s.status.clamp = true → (statusWritten s.inbox.head?).getLsbD 5 = false → t.status.clamp = true)

/-- At FORM = 0 no command reads or writes bytes 328 to 343: they stay as they are, and two blocks that differ only there
end alike in everything else (10_state.md R42). -/
def Obligations.StoredFormHidesThePartyBytes : Prop :=
  ∀ (s : State) (i : Instr) (m : Memory), s.ctrl.form = false → (∀ x < 328, m.get x = s.buf.get x) →
    ∃ t u, exec i s = .next t ∧ exec i { s with buf := m } = .next u ∧ { u with buf := t.buf } = t ∧
      (∀ x < 328, u.buf.get x = t.buf.get x) ∧ ∀ x, 328 ≤ x → t.buf.get x = s.buf.get x ∧ u.buf.get x = m.get x

/-! ## Bit-field packer -/

/-- NOP changes no state except BUSY and DONE (40_bitfield.md R110). -/
def Obligations.NopOnlyCompletes : Prop :=
  Encoded 0xFFFFFFFF 0x00000000 (fun _ => .nop) ∧
  ∀ s : State, exec .nop s = .next { s with status := finished s.status }

/-- GETBIT reads bit `BITIDX & 7` of BUF[ADDR] into RESULT and writes nothing else; ADDR at or beyond LEN is a ContractError
(40_bitfield.md R111). -/
def Obligations.GetbitReadsOneBit : Prop :=
  Encoded 0x00FE00FF 0x00000001 (fun c => .getbit (fld c 16 8) (fld c 31 24)) ∧
  ∀ (s : State) (addr bit : Nat),
    (addr < s.len → ∃ r : Word, exec (.getbit addr bit) s = .next { s with result := r, status := finished s.status } ∧
      r.toNat = ((s.buf.get addr).getLsbD (bit % 8)).toNat) ∧
    (s.len ≤ addr → exec (.getbit addr bit) s = .next (contractFailed s))

/-- SETBIT writes bit `BITIDX & 7` of BUF[ADDR] and leaves the other seven bits, every other byte and every register as they
are; ADDR at or beyond LEN is a ContractError (40_bitfield.md R112). -/
def Obligations.SetbitWritesOneBit : Prop :=
  Encoded 0x00FC00FF 0x00000002 (fun c => .setbit (fld c 16 8) (fld c 31 24) (decide (fld c 17 17 = 1))) ∧
  ∀ (s : State) (addr bit : Nat) (val : Bool),
    (addr < s.len → ∃ m : Memory, exec (.setbit addr bit val) s = .next { s with buf := m, status := finished s.status } ∧
      (∀ j < 8, (m.get addr).getLsbD j = if j = bit % 8 then val else (s.buf.get addr).getLsbD j) ∧
      ∀ x, x ≠ addr → m.get x = s.buf.get x) ∧
    (s.len ≤ addr → exec (.setbit addr bit val) s = .next (contractFailed s))

/-- PKCLR writes 0 to ACC and POS and nothing else; CLAMP is not cleared (40_bitfield.md R113). -/
def Obligations.PkclrClearsAccAndPos : Prop :=
  Encoded 0xFFFFFFFF 0x00000003 (fun _ => .pkclr) ∧
  ∀ s : State, exec .pkclr s = .next { s with acc := 0, pos := 0, status := finished s.status }

/-- PKAPP saturates OPA to W bits, ORs it into ACC at POS, adds W to POS and sets CLAMP exactly when the value saturated;
W = 0 or POS + W > 32 is a ContractError that leaves ACC, POS and CLAMP (40_bitfield.md R114). -/
def Obligations.PkappAppendsSaturated : Prop :=
  Encoded 0xFFFFC0FF 0x00000004 (fun c => .pkapp (fld c 13 8)) ∧
  ∀ (s : State) (w : Nat),
    (w ≠ 0 → s.pos.toNat + w ≤ 32 → ∃ p : BitVec 6, p.toNat = s.pos.toNat + w ∧
      exec (.pkapp w) s = .next { s with
        acc := s.acc ||| (BitVec.ofNat 32 (min s.opa.toNat (2 ^ w - 1)) <<< s.pos.toNat)
        pos := p
        status := { finished s.status with clamp := s.status.clamp || decide (2 ^ w - 1 < s.opa.toNat) } }) ∧
    (w = 0 ∨ 32 < s.pos.toNat + w → exec (.pkapp w) s = .next (contractFailed s))

/-- UNPK extracts `(x >> OFF) & (2^W - 1)` of OPA or ACC into RESULT and writes nothing else; W = 0 or OFF + W > 32 is a
ContractError (40_bitfield.md R115). -/
def Obligations.UnpkExtractsTheField : Prop :=
  Encoded 0xFFC080FF 0x00000005 (fun c => .unpk (fld c 13 8) (fld c 21 16) (srcOf (fld c 14 14))) ∧
  ∀ (s : State) (off w : Nat) (src : Src),
    (w ≠ 0 → off + w ≤ 32 → exec (.unpk off w src) s = .next { s with
      result := ((match src with | .opa => s.opa | .acc => s.acc : Word) >>> off) &&& BitVec.ofNat 32 (2 ^ w - 1)
      status := finished s.status }) ∧
    (w = 0 ∨ 32 < off + w → exec (.unpk off w src) s = .next (contractFailed s))

/-- Appending a field leaves the fields below it and puts the clamped value, whatever the others are, in its own bits: from
any state that meets the invariant (40_bitfield.md R117). -/
def Obligations.ClampingKeepsTheNeighbours : Prop :=
  ∀ (s : State) (w : Nat), s.Inv → w ≠ 0 → s.pos.toNat + w ≤ 32 → ∃ t, exec (.pkapp w) s = .next t ∧
    t.acc.toNat % 2 ^ s.pos.toNat = s.acc.toNat ∧
    t.acc.toNat / 2 ^ s.pos.toNat = min s.opa.toNat (2 ^ w - 1) ∧ t.pos.toNat = s.pos.toNat + w

/-- PKCLR and then an append for each element computes the source's `pack`: ACC is the OR of the clamped values at their
positions, POS the widths' sum, CLAMP as before or some value was too large; an element that would pass bit 31 raises
ContractError and leaves ACC and POS (40_bitfield.md R116). -/
def Obligations.PackSequenceComputesPack : Prop :=
  ∀ (s : State) (elems : List (Word × Nat)), (∀ e ∈ elems, 1 ≤ e.2) → totalWidth elems ≤ 32 →
    ∃ t, packAll elems s = .next t ∧ t.acc.toNat = packOr 0 elems ∧ t.pos.toNat = totalWidth elems ∧
      t.status.clamp = (s.status.clamp || elems.any fun e => decide (2 ^ e.2 - 1 < e.1.toNat)) ∧
      ∀ (v : Word) (w : Nat), 32 < totalWidth elems + w →
        ∃ u, exec (.pkapp w) { t with opa := v } = .next u ∧ u.status.errContract = true ∧ u.acc = t.acc ∧ u.pos = t.pos

/-- Pack and unpack round trip: each element of a pack reads back clamped from its own position (40_bitfield.md R118). -/
def Obligations.PackUnpackRoundTrip : Prop :=
  ∀ (s : State) (before after : List (Word × Nat)) (v : Word) (w : Nat),
    (∀ e ∈ before ++ (v, w) :: after, 1 ≤ e.2) → totalWidth (before ++ (v, w) :: after) ≤ 32 →
    ∃ t u, packAll (before ++ (v, w) :: after) s = .next t ∧ exec (.unpk (totalWidth before) w .acc) t = .next u ∧
      u.result.toNat = min v.toNat (2 ^ w - 1)

/-! ## Block permutation -/

/-- PERM and PERM.INV: destination sub-block `blk` receives what source sub-block `FWD[4r + blk]` held before, r being IDX
or INV[IDX]; every other byte and register is as it was (41_permute.md R130, R134). -/
def Obligations.PermMovesTheSubBlocks : Prop :=
  Encoded 0xFFFFC0FF 0x00000010 (fun c => .perm (fld c 12 8) (rowSelOf (fld c 13 13))) ∧
  ∀ (s : State) (idx : Nat) (sel : RowSel), ∃ m : Memory,
    exec (.perm idx sel) s = .next { s with buf := m, status := finished s.status } ∧
    (∀ blk < 4, ∀ k < 80, m.get (8 + 80 * blk + k) = s.buf.get
      (8 + 80 * s.rom.row (match sel with | .direct => idx | .inverse => s.rom.invRow idx) blk + k)) ∧
    ∀ x, x < 8 ∨ 328 ≤ x → m.get x = s.buf.get x

/-- PERM i and PERM.INV i undo each other in either order, for every ROM that meets the constraints (41_permute.md R133,
R135). -/
def Obligations.PermAndPermInvUndoEachOther : Prop :=
  ∀ (s : State) (i : Nat), s.rom.admissible = true → i < 32 →
    ∃ t u t' u', exec (.perm i .direct) s = .next t ∧ exec (.perm i .inverse) t = .next u ∧
      SameBytes u.buf s.buf ∧ exec (.perm i .inverse) s = .next t' ∧ exec (.perm i .direct) t' = .next u' ∧
      SameBytes u'.buf s.buf

/-- Rows 24 to 31 act as rows 0 to 7, for PERM and PERM.INV and every ROM that meets the constraints (41_permute.md R133,
R136). -/
def Obligations.DuplicateRowsActAlike : Prop :=
  ∀ (s : State) (i : Nat) (sel : RowSel), s.rom.admissible = true → 24 ≤ i → i < 32 →
    ∃ t u, exec (.perm i sel) s = .next t ∧ exec (.perm (i - 24) sel) s = .next u ∧ SameBytes t.buf u.buf

/-- Every pair of tables that meets the constraints gives inverse permutations of BUF, and the pair at reset meets them
(41_permute.md R133; the contents at reset are the default, PRESUMED, log entry 5). -/
def Obligations.AdmissibleTablesGiveInversePermutations : Prop :=
  State.reset.rom.admissible = true ∧
  ∀ (t : Config.Tables) (i : Nat) (m : Memory), t.admissible = true → i < 32 →
    SameBytes (permute t (t.invRow i) (permute t i m)) m ∧ SameBytes (permute t i (permute t (t.invRow i) m)) m

/-! ## Cipher -/

/-- The LCG step, product and sum at full width and then modulo 2^32 (42_cipher.md R140). -/
def Obligations.LcgStepIsTheSourceFormula : Prop :=
  ∀ x : Word, (lcgStep x).toNat = (x.toNat * 0x41C64E6D + 0x00006073) % 2 ^ 32

/-- CRYPT XORs the keystream of SEED over START..END-1 and writes LCG with the state after `(END - START) / 2` steps; pair
`j` of the range is XORed with bits 23:16 and 31:24 of the state after `j + 1` steps; nothing else changes; a bad range is a
ContractError (42_cipher.md R141, R142). -/
def Obligations.CryptXorsTheKeystream : Prop :=
  Encoded 0xFC0000FF 0x00000020 (fun c => .crypt (fld c 16 8) (fld c 25 17)) ∧
  ∀ (s : State) (a b : Nat),
    (a < b → b ≤ s.len → (b - a) % 2 = 0 → ∃ m : Memory,
      exec (.crypt a b) s = .next { s with
        buf := m, lcg := lcgStep^[(b - a) / 2] s.seed, status := finished s.status } ∧
      (∀ j < (b - a) / 2,
        m.get (a + 2 * j) = s.buf.get (a + 2 * j) ^^^ BitVec.ofNat 8 ((lcgStep^[j + 1] s.seed).toNat / 2 ^ 16) ∧
        m.get (a + 2 * j + 1) = s.buf.get (a + 2 * j + 1) ^^^ BitVec.ofNat 8 ((lcgStep^[j + 1] s.seed).toNat / 2 ^ 24)) ∧
      ∀ x, x < a ∨ b ≤ x → m.get x = s.buf.get x) ∧
    (b ≤ a ∨ s.len < b ∨ (b - a) % 2 = 1 → exec (.crypt a b) s = .next (contractFailed s))

/-- CRYPT twice with the same SEED and no write to the range between restores the range, and leaves the same LCG; whatever
else has changed between, as long as the range still ends within LEN (42_cipher.md R147). -/
def Obligations.CryptTwiceRestores : Prop :=
  ∀ (s t u : State) (a b : Nat), a < b → b ≤ s.len → (b - a) % 2 = 0 → exec (.crypt a b) s = .next t →
    u.seed = s.seed → b ≤ u.len → (∀ x, a ≤ x → x < b → u.buf.get x = t.buf.get x) →
    ∃ v, exec (.crypt a b) u = .next v ∧ v.lcg = t.lcg ∧ ∀ x, a ≤ x → x < b → v.buf.get x = s.buf.get x

/-- DECRYPT: un-XOR with the keystream of the seed at bytes 0 to 3, the party range from the seed again when LEN = 344, then
permute by row `(seed >> 13) & 31`; LCG is the last state; nothing else changes (42_cipher.md R143, R144). -/
def Obligations.DecryptUnXorsThenPermutes : Prop :=
  Encoded 0xFFFFFFFF 0x00000021 (fun _ => .decrypt) ∧
  ∀ s : State, ∃ t, exec .decrypt s = .next t ∧ Decrypted s t (finished s.status)

/-- ENCRYPT: permute by row `INV[(seed >> 13) & 31]`, then XOR; LCG is the last state; nothing else changes (42_cipher.md
R143, R145). -/
def Obligations.EncryptPermutesThenXors : Prop :=
  Encoded 0xFFFFFFFF 0x00000022 (fun _ => .encrypt) ∧
  ∀ s : State, ∃ m : Memory, exec .encrypt s = .next { s with
      buf := m, lcg := cryptedState s.len (BitVec.ofNat 32 (seedOf s.buf)), status := finished s.status } ∧
    (∀ blk < 4, ∀ k < 80, m.get (8 + 80 * blk + k) =
      s.buf.get (8 + 80 * s.rom.row (s.rom.invRow (seedOf s.buf / 8192 % 32)) blk + k) ^^^
        keyAt (BitVec.ofNat 32 (seedOf s.buf)) (80 * blk + k)) ∧
    ∀ x, x < 8 ∨ 328 ≤ x → m.get x = cryptedByte s.len (BitVec.ofNat 32 (seedOf s.buf)) s.buf x

/-- ENCRYPT and then DECRYPT leaves every byte of BUF as it was, for every buffer, either FORM and every ROM that meets the
constraints (42_cipher.md R148, 41_permute.md R133). -/
def Obligations.DecryptUndoesEncrypt : Prop :=
  ∀ s : State, s.rom.admissible = true →
    ∃ t u, exec .encrypt s = .next t ∧ exec .decrypt t = .next u ∧ SameBytes u.buf s.buf

/-- DECRYPT and then ENCRYPT leaves every byte of BUF as it was, for every buffer, either FORM and every ROM that meets the
constraints (42_cipher.md R149, 41_permute.md R133). -/
def Obligations.EncryptUndoesDecrypt : Prop :=
  ∀ s : State, s.rom.admissible = true →
    ∃ t u, exec .decrypt s = .next t ∧ exec .encrypt t = .next u ∧ SameBytes u.buf s.buf

/-- DECIF decrypts as DECRYPT does and sets DECRYPTED exactly when the u16 at both guard offsets is nonzero; else it writes
DECRYPTED with 0 and nothing else; the two offsets are even and in 168..246 (42_cipher.md R146). -/
def Obligations.DecifDecryptsWhenBothGuardsAreNonzero : Prop :=
  Encoded 0xFFFFFFFF 0x00000023 (fun _ => .decif) ∧
  (Config.guardOfsA % 2 = 0 ∧ 168 ≤ Config.guardOfsA ∧ Config.guardOfsA ≤ 246) ∧
  (Config.guardOfsB % 2 = 0 ∧ 168 ≤ Config.guardOfsB ∧ Config.guardOfsB ≤ 246) ∧
  ∀ s : State,
    (u16 s.buf Config.guardOfsA ≠ 0 ∧ u16 s.buf Config.guardOfsB ≠ 0 →
      ∃ t, exec .decif s = .next t ∧ Decrypted s t { finished s.status with decrypted := true }) ∧
    (u16 s.buf Config.guardOfsA = 0 ∨ u16 s.buf Config.guardOfsB = 0 →
      exec .decif s = .next { s with status := { finished s.status with decrypted := false } })

/-- When one of the two guard words is 0 after a DECIF, a second DECIF leaves BUF unchanged: it writes DECRYPTED with 0 and
completes, and nothing else changes (42_cipher.md R150, the direction that makes DECIF idempotent). -/
def Obligations.DecifTwiceIsStableWhenAGuardIsZero : Prop :=
  ∀ s t : State, exec .decif s = .next t → u16 t.buf Config.guardOfsA = 0 ∨ u16 t.buf Config.guardOfsB = 0 →
    exec .decif t = .next { t with status := { finished t.status with decrypted := false } }

/-- No DECRYPT, ENCRYPT, DECIF or PERM writes bytes 0 to 7 (42_cipher.md R151). -/
def Obligations.ContainerCommandsKeepTheHeader : Prop :=
  ∀ (s : State) (i : Instr), i.mnemonic ∈ ["DECRYPT", "ENCRYPT", "DECIF", "PERM"] →
    ∃ t, exec i s = .next t ∧ (∀ x < 8, t.buf.get x = s.buf.get x) ∧ seedOf t.buf = seedOf s.buf

/-- Encrypted at one FORM and decrypted at the other, bytes 0 to 327 come back, for every ROM that meets the constraints;
bytes 328 to 343 stay encrypted one way and are XORed once with the party keystream the other way (70_reset_and_hazards.md
R199, 41_permute.md R133). -/
def Obligations.StoredBytesDoNotDependOnForm : Prop :=
  ∀ (s : State) (irq : Bool), s.rom.admissible = true → ∃ t u,
    exec .encrypt s = .next t ∧ exec .decrypt { t with ctrl := ⟨!s.ctrl.form, irq⟩ } = .next u ∧
    (∀ x < 328, u.buf.get x = s.buf.get x) ∧
    ∀ x, 328 ≤ x → x < 344 →
      (s.ctrl.form = true → u.buf.get x = t.buf.get x) ∧
      (s.ctrl.form = false → u.buf.get x = s.buf.get x ^^^ keyAt (BitVec.ofNat 32 (seedOf s.buf)) (x - 328))

/-! ## Checksum -/

/-- CSUM writes CSUM with the sum of the u16 words at 8, 10, ..., END - 2 modulo 2^16 and nothing else; END below 8, beyond
LEN or odd is a ContractError (43_checksum.md R160, R161). -/
def Obligations.CsumAddsTheWords : Prop :=
  Encoded 0xFFFE00FF 0x00000030 (fun c => .csum (fld c 16 8)) ∧
  ∀ (s : State) (e : Nat),
    (8 ≤ e → e ≤ s.len → e % 2 = 0 → ∃ v : BitVec 16,
      exec (.csum e) s = .next { s with csum := v, status := finished s.status } ∧
      v.toNat = ((List.range ((e - 8) / 2)).map fun j => u16 s.buf (8 + 2 * j)).sum % 65536) ∧
    (e < 8 ∨ s.len < e ∨ e % 2 = 1 → exec (.csum e) s = .next (contractFailed s))

/-- CSUMST writes the checksum to CSUM and, little-endian, to bytes 6 and 7, and nothing else; the contract is CSUM's
(43_checksum.md R162). -/
def Obligations.CsumstStoresTheChecksum : Prop :=
  Encoded 0xFFFE00FF 0x00020030 (fun c => .csumst (fld c 16 8)) ∧
  ∀ (s : State) (e : Nat),
    (8 ≤ e → e ≤ s.len → e % 2 = 0 → ∃ (v : BitVec 16) (m : Memory),
      exec (.csumst e) s = .next { s with csum := v, buf := m, status := finished s.status } ∧
      v.toNat = ((List.range ((e - 8) / 2)).map fun j => u16 s.buf (8 + 2 * j)).sum % 65536 ∧
      (m.get 6).toNat = v.toNat % 256 ∧ (m.get 7).toNat = v.toNat / 256 ∧
      ∀ x, x ≠ 6 → x ≠ 7 → m.get x = s.buf.get x) ∧
    (e < 8 ∨ s.len < e ∨ e % 2 = 1 → exec (.csumst e) s = .next (contractFailed s))

/-- CSUMVF writes CSUM with the checksum and MISMATCH with whether it differs from the u16 at 6, and nothing else: no ERR
bit and no `irq` of its own; the contract is CSUM's (43_checksum.md R163). -/
def Obligations.CsumvfComparesTheChecksum : Prop :=
  Encoded 0xFFFE00FF 0x00040030 (fun c => .csumvf (fld c 16 8)) ∧
  ∀ (s : State) (e : Nat),
    (8 ≤ e → e ≤ s.len → e % 2 = 0 → ∃ v : BitVec 16,
      exec (.csumvf e) s = .next { s with
        csum := v, status := { finished s.status with mismatch := decide (v.toNat ≠ u16 s.buf 6) } } ∧
      v.toNat = ((List.range ((e - 8) / 2)).map fun j => u16 s.buf (8 + 2 * j)).sum % 65536) ∧
    (e < 8 ∨ s.len < e ∨ e % 2 = 1 → exec (.csumvf e) s = .next (contractFailed s))

/-- Storing converges in one pass: after CSUMST 328 and no write to bytes 8 to 327, a second one writes the same value, and
CSUMVF 328 finds no mismatch (43_checksum.md R164). -/
def Obligations.ChecksumStoreConverges : Prop :=
  ∀ s t u : State, exec (.csumst 328) s = .next t → (∀ x, 8 ≤ x → x < 328 → u.buf.get x = t.buf.get x) →
    (∃ v, exec (.csumst 328) u = .next v ∧ v.csum = t.csum ∧ v.buf.get 6 = t.buf.get 6 ∧ v.buf.get 7 = t.buf.get 7) ∧
    ∃ v, exec (.csumvf 328) t = .next v ∧ v.status.mismatch = false ∧ v.csum = t.csum

/-- The checksum depends on bytes 8 to END - 1 only, and a change of exactly one of them changes it, by the change of the
byte or 256 times that (43_checksum.md R165, 90_conflicts.md C7). -/
def Obligations.ChecksumSeesEverySingleByte : Prop :=
  (∀ (m m' : Memory) (e : Nat), (∀ x, 8 ≤ x → x < e → m'.get x = m.get x) → checksum m' e = checksum m e) ∧
  ∀ (m m' : Memory) (e x : Nat), e % 2 = 0 → 8 ≤ x → x < e → m'.get x ≠ m.get x →
    (∀ y, 8 ≤ y → y < e → y ≠ x → m'.get y = m.get y) →
    checksum m' e ≠ checksum m e ∧
    (((checksum m' e).toNat : Int) - (checksum m e).toNat -
      (((m'.get x).toNat : Int) - (m.get x).toNat) * (if x % 2 = 0 then 1 else 256)) % 65536 = 0

/-- `Checksum(328)` is unchanged by PERM, for every ROM that meets the constraints (43_checksum.md R166, 41_permute.md
R133). -/
def Obligations.PermKeepsTheChecksum : Prop :=
  ∀ (s : State) (i : Nat) (sel : RowSel), s.rom.admissible = true → i < 32 → ∃ t, exec (.perm i sel) s = .next t ∧
    checksum t.buf 328 = checksum s.buf 328
end

