-- ==== Sys2Proof/Laws/Memory.lean ====
section
/-! SUPPORT. What reads and writes of BUF do: read after write, the canonical form, little-endian values. -/

namespace Sys2Proof.Machine

/-- Read after write on the listed cells. -/
theorem cellAt_putCell (a x : Nat) (v : Byte) (l : List Host.Cell) :
    cellAt x (putCell a v l) = if x = a then some v else cellAt x l := by
  induction l with
  | nil => simp [putCell, cellAt]
  | cons c rest ih =>
    obtain ⟨b, w⟩ := c
    simp only [putCell]
    split
    · simp [cellAt]
    · split
      · subst_vars
        by_cases hx : x = b <;> simp [cellAt, hx]
      · by_cases hx : x = b
        · subst hx
          rw [if_neg (by omega)]
          simp [cellAt]
        · simp [cellAt, hx, ih]

/-- Listing a byte of BUF keeps addresses strictly rising. -/
theorem cellsWf_putCell {a lo : Nat} {v : Byte} {l : List Host.Cell} (hlo : lo ≤ a) (ha : a < Config.partyLen)
    (h : cellsWf lo l = true) : cellsWf lo (putCell a v l) = true := by
  induction l generalizing lo with
  | nil => simp [putCell, cellsWf, hlo, ha]
  | cons c rest ih =>
    obtain ⟨b, w⟩ := c
    simp only [cellsWf, Bool.and_eq_true, decide_eq_true_eq] at h
    simp only [putCell]
    split
    · simp only [cellsWf, Bool.and_eq_true, decide_eq_true_eq]
      exact ⟨⟨hlo, ha⟩, ⟨by omega, h.1.2⟩, h.2⟩
    · split
      · subst_vars
        simp only [cellsWf, Bool.and_eq_true, decide_eq_true_eq]
        exact ⟨⟨hlo, ha⟩, h.2⟩
      · simp only [cellsWf, Bool.and_eq_true, decide_eq_true_eq]
        exact ⟨h.1, ih (by omega) h.2⟩

/-- Read after write. -/
theorem Memory.get_set (m : Memory) (a x : Nat) (v : Byte) :
    (m.set a v).get x = if x = a ∧ a < Config.partyLen then v else m.get x := by
  unfold Memory.set
  split
  · by_cases hx : x = a <;> simp [Memory.get, cellAt_putCell, *]
  · simp [*]

@[simp] theorem Memory.set_epoch (m : Memory) (a : Nat) (v : Byte) : (m.set a v).epoch = m.epoch := by
  unfold Memory.set
  split <;> rfl

/-- Every write of a byte keeps the canonical form. -/
theorem Memory.set_wf {m : Memory} (h : m.wf = true) (a : Nat) (v : Byte) : (m.set a v).wf = true := by
  unfold Memory.set
  split
  · exact cellsWf_putCell (Nat.zero_le a) ‹_› h
  · exact h

/-- A little-endian read depends on its own bytes only. -/
theorem Memory.memRead_congr {m m' : Memory} (n a : Nat) (h : ∀ k < n, m.get (a + k) = m'.get (a + k)) :
    m.memRead a n = m'.memRead a n := by
  induction n generalizing a with
  | zero => rfl
  | succ n ih =>
    have h0 := h 0 (by omega)
    have ih' := ih (a + 1) fun k hk => by have := h (k + 1) (by omega); rwa [show a + 1 + k = a + (k + 1) by omega]
    simp only [Memory.memRead, ih']
    simp only [Nat.add_zero] at h0
    rw [h0]

/-- A little-endian read fits its width. -/
theorem Memory.memRead_lt (m : Memory) (n a : Nat) : m.memRead a n < 256 ^ n := by
  induction n generalizing a with
  | zero => simp [Memory.memRead]
  | succ n ih =>
    have hb := (m.get a).isLt
    have := ih (a + 1)
    simp only [Memory.memRead, Nat.pow_succ]
    omega

/-- A little-endian write: the bytes of the value inside the range, every other byte unchanged (20_memory.md R62). -/
theorem Memory.get_memWrite (m : Memory) (n a v x : Nat) :
    (m.memWrite a n v).get x =
      if a ≤ x ∧ x < a + n ∧ x < Config.partyLen then BitVec.ofNat 8 (v / 256 ^ (x - a)) else m.get x := by
  induction n generalizing m a v with
  | zero =>
    rw [if_neg (by omega)]
    rfl
  | succ n ih =>
    simp only [Memory.memWrite, ih, Memory.get_set]
    by_cases hx : x = a
    · subst hx
      simp
    · by_cases hin : a + 1 ≤ x ∧ x < a + 1 + n ∧ x < Config.partyLen
      · rw [if_pos hin, if_pos (by omega), show x - a = (x - (a + 1)) + 1 by omega, Nat.pow_succ', Nat.div_div_eq_div_mul]
      · rw [if_neg hin, if_neg (by omega), if_neg (by omega)]

@[simp] theorem Memory.memWrite_epoch (m : Memory) (n a v : Nat) : (m.memWrite a n v).epoch = m.epoch := by
  induction n generalizing m a v with
  | zero => rfl
  | succ n ih => simp [Memory.memWrite, ih]

/-- Every little-endian write keeps the canonical form. -/
theorem Memory.memWrite_wf {m : Memory} (h : m.wf = true) (n a v : Nat) : (m.memWrite a n v).wf = true := by
  induction n generalizing m a v with
  | zero => exact h
  | succ n ih => exact ih (Memory.set_wf h _ _) _ _

/-- A little-endian read of a value just written inside BUF (20_memory.md R62, R67). -/
theorem Memory.memRead_memWrite (m : Memory) {n a : Nat} (v : Nat) (h : a + n ≤ Config.partyLen) :
    (m.memWrite a n v).memRead a n = v % 256 ^ n := by
  induction n generalizing m a v with
  | zero => simp [Memory.memRead, Nat.mod_one]
  | succ n ih =>
    simp only [Memory.memRead, Memory.memWrite]
    have hv : v % 256 ^ (n + 1) = v % 256 + 256 * (v / 256 % 256 ^ n) := by rw [Nat.pow_succ', Nat.mod_mul]
    rw [ih _ _ (by omega), Memory.get_memWrite, if_neg (by omega), Memory.get_set, if_pos (by omega),
      BitVec.toNat_ofNat, hv]

/-- The seed depends on bytes 0 to 3 only (42_cipher.md R151). -/
theorem Memory.seed_congr {m m' : Memory} (h : ∀ k < 4, m.get k = m'.get k) : m.seed = m'.seed := by
  unfold Memory.seed
  rw [Memory.memRead_congr 4 Config.seedOfs (fun k hk => by simpa [Config.seedOfs] using h k hk)]

@[simp] theorem Memory.wf_empty (e : Nat) : Memory.wf ⟨[], e⟩ = true := rfl

end Sys2Proof.Machine
end

