-- ==== Sys2Proof/Laws/Checksum.lean ====
section
/-! SUPPORT. The checksum as a sum of words modulo 2^16 (43_checksum.md R160). -/

namespace Sys2Proof.Machine

theorem checksumLoop_toNat (m : Memory) (n a : Nat) (sum : BitVec 16) :
    (checksumLoop m n a sum).toNat = (sum.toNat + ((List.range n).map fun j => m.memRead (a + 2 * j) 2).sum) % 65536 := by
  induction n generalizing a sum with
  | zero => simp [checksumLoop, Nat.mod_eq_of_lt sum.isLt]
  | succ n ih =>
    have hlt := m.memRead_lt 2 a
    have hw : ((List.range n).map fun j => m.memRead (a + 2 * (j + 1)) 2).sum
        = ((List.range n).map fun j => m.memRead (a + 2 + 2 * j) 2).sum := by
      congr 1
      exact List.map_congr_left fun j _ => by rw [show a + 2 * (j + 1) = a + 2 + 2 * j by omega]
    rw [checksumLoop, ih, List.range_succ_eq_map]
    simp only [List.map_cons, List.map_map, List.sum_cons, Function.comp_def, Nat.succ_eq_add_one, hw,
      BitVec.toNat_add, BitVec.toNat_ofNat, Nat.mul_zero, Nat.add_zero]
    omega

/-- `Checksum(e)` is the sum of the words at 8, 10, ..., e - 2 modulo 2^16 (43_checksum.md R160). -/
theorem checksum_toNat (m : Memory) (stop : Nat) :
    (checksum m stop).toNat = ((List.range ((stop - 8) / 2)).map fun j => m.memRead (8 + 2 * j) 2).sum % 65536 := by
  simp [checksum, Config.hdrLen, checksumLoop_toNat]

/-- `Checksum(e)` depends on `BUF[8..e-1]` only (43_checksum.md R165). -/
theorem checksum_congr {m m' : Memory} {stop : Nat} (h : ∀ x, 8 ≤ x → x < stop → m.get x = m'.get x) :
    checksum m stop = checksum m' stop := by
  apply BitVec.eq_of_toNat_eq
  rw [checksum_toNat, checksum_toNat]
  congr 2
  refine List.map_congr_left fun j hj => Memory.memRead_congr 2 _ fun k hk => h _ (by omega) ?_
  rw [List.mem_range] at hj
  omega

end Sys2Proof.Machine
end

