-- ==== Sys2Proof/Laws/Permute.lean ====
section
/-! SUPPORT. What the permutation engine does to each byte of BUF (41_permute.md R130). -/

namespace Sys2Proof.Machine

theorem copyBytes_get (src : Memory) (n o d x : Nat) (m : Memory) :
    (copyBytes src o d n m).get x =
      if d ≤ x ∧ x < d + n ∧ x < Config.partyLen then src.get (o + (x - d)) else m.get x := by
  induction n generalizing o d m with
  | zero =>
    rw [if_neg (by omega)]
    rfl
  | succ n ih =>
    simp only [copyBytes, ih, Memory.get_set]
    by_cases hx : x = d
    · subst hx
      simp
    · by_cases hin : d + 1 ≤ x ∧ x < d + 1 + n ∧ x < Config.partyLen
      · rw [if_pos hin, if_pos (by omega), show o + 1 + (x - (d + 1)) = o + (x - d) by omega]
      · rw [if_neg hin, if_neg (by omega), if_neg (by omega)]

@[simp] theorem copyBytes_epoch (src : Memory) (n o d : Nat) (m : Memory) :
    (copyBytes src o d n m).epoch = m.epoch := by
  induction n generalizing o d m with
  | zero => rfl
  | succ n ih => simp [copyBytes, ih]

theorem copyBytes_wf (src : Memory) (n o d : Nat) {m : Memory} (h : m.wf = true) :
    (copyBytes src o d n m).wf = true := by
  induction n generalizing o d m with
  | zero => exact h
  | succ n ih => exact ih _ _ (Memory.set_wf h _ _)

/-- A byte after the copy of one sub-block (41_permute.md R130). -/
theorem permuteBlock_get (t : Config.Tables) (r blk x : Nat) (src m : Memory) :
    (permuteBlock t r src blk m).get x =
      if 8 + 80 * blk ≤ x ∧ x < 88 + 80 * blk ∧ x < 344 then src.get (8 + 80 * t.row r blk + (x - (8 + 80 * blk)))
      else m.get x := by
  rw [permuteBlock, copyBytes_get]
  simp only [Config.hdrLen, Config.blockSize, Config.partyLen]
  by_cases hx : 8 + 80 * blk ≤ x ∧ x < 88 + 80 * blk ∧ x < 344
  · rw [if_pos hx, if_pos ⟨hx.1, by omega, hx.2.2⟩]
  · rw [if_neg hx, if_neg fun h => hx ⟨h.1, by omega, h.2.2⟩]

/-- The four copies of `Permute`, in order. -/
theorem permute_eq (t : Config.Tables) (r : Nat) (m : Memory) :
    permute t r m =
      permuteBlock t r m 3 (permuteBlock t r m 2 (permuteBlock t r m 1 (permuteBlock t r m 0 m))) := by
  simp [permute, List.range_succ]

/-- A byte inside the blocks region after `Permute(r)` (41_permute.md R130). -/
theorem permute_get_block (t : Config.Tables) (r : Nat) (m : Memory) {blk k : Nat} (hb : blk < 4) (hk : k < 80) :
    (permute t r m).get (8 + 80 * blk + k) = m.get (8 + 80 * t.row r blk + k) := by
  have hk' : 8 + 80 * blk + k - (8 + 80 * blk) = k := by omega
  rw [permute_eq]
  simp only [permuteBlock_get]
  obtain rfl | rfl | rfl | rfl : blk = 0 ∨ blk = 1 ∨ blk = 2 ∨ blk = 3 := by omega
  · rw [if_neg (by omega), if_neg (by omega), if_neg (by omega), if_pos (by omega), hk']
  · rw [if_neg (by omega), if_neg (by omega), if_pos (by omega), hk']
  · rw [if_neg (by omega), if_pos (by omega), hk']
  · rw [if_pos (by omega), hk']

/-- A byte outside the blocks region is untouched (41_permute.md R130). -/
theorem permute_get_outside (t : Config.Tables) (r : Nat) (m : Memory) {x : Nat} (hx : x < 8 ∨ 328 ≤ x) :
    (permute t r m).get x = m.get x := by
  rw [permute_eq]
  simp only [permuteBlock_get]
  rw [if_neg (by omega), if_neg (by omega), if_neg (by omega), if_neg (by omega)]

@[simp] theorem permute_epoch (t : Config.Tables) (r : Nat) (m : Memory) : (permute t r m).epoch = m.epoch := by
  simp [permute_eq, permuteBlock]

/-- `Permute` keeps the canonical form. -/
theorem permute_wf (t : Config.Tables) (r : Nat) {m : Memory} (h : m.wf = true) : (permute t r m).wf = true := by
  simp only [permute_eq, permuteBlock]
  exact copyBytes_wf _ _ _ _ (copyBytes_wf _ _ _ _ (copyBytes_wf _ _ _ _ (copyBytes_wf _ _ _ _ h)))

/-- Every byte of the blocks region is byte `k` of sub-block `blk`. -/
theorem block_cases {x : Nat} (h8 : 8 ≤ x) (h328 : x < 328) : ∃ blk < 4, ∃ k < 80, x = 8 + 80 * blk + k :=
  ⟨(x - 8) / 80, by omega, (x - 8) % 80, by omega, by omega⟩

theorem row_lt (t : Config.Tables) (r blk : Nat) : t.row r blk < 4 := (t.fwd.getD (4 * r + blk) 0).isLt

theorem invRow_lt (t : Config.Tables) (i : Nat) : t.invRow i < 32 := (t.inv.getD i 0).isLt

end Sys2Proof.Machine
end

