-- ==== Sys2Proof/Laws/Cipher.lean ====
section
/-! SUPPORT. What the cipher does to each byte of BUF and to the LCG state (42_cipher.md R141, R143). -/

namespace Sys2Proof.Machine

theorem xorPair_get (m : Memory) (a x : Nat) (k : Word) :
    (xorPair m a k).get x =
      if x = a ∧ a < Config.partyLen then m.get x ^^^ keyLow k
      else if x = a + 1 ∧ a + 1 < Config.partyLen then m.get x ^^^ keyHigh k
      else m.get x := by
  simp only [xorPair, Memory.get_set]
  by_cases h0 : x = a
  · subst h0
    simp
  · by_cases h1 : x = a + 1
    · subst h1
      simp
    · simp [h0, h1]

/-- The keystream after one step is the keystream two bytes on. -/
theorem keyAt_lcgStep (k : Word) (j : Nat) : keyAt (lcgStep k) j = keyAt k (j + 2) := by
  rw [keyAt, keyAt, Nat.add_mod_right, Nat.add_div_right j (by decide), Function.iterate_succ_apply lcgStep (j / 2 + 1) k]

theorem cryptLoop_get (n a x : Nat) (k : Word) (m : Memory) :
    (cryptLoop n a k m).1.get x =
      if a ≤ x ∧ x < a + 2 * n ∧ x < Config.partyLen then m.get x ^^^ keyAt k (x - a) else m.get x := by
  induction n generalizing a k m with
  | zero =>
    rw [if_neg (by omega)]
    rfl
  | succ n ih =>
    simp only [cryptLoop, ih, xorPair_get, keyAt_lcgStep]
    by_cases h0 : x = a
    · subst h0
      simp [keyAt]
    · by_cases h1 : x = a + 1
      · subst h1
        simp [keyAt, show 1 < 2 * (n + 1) by omega]
      · simp only [h0, h1, false_and, if_false]
        by_cases hin : a + 2 ≤ x ∧ x < a + 2 + 2 * n ∧ x < Config.partyLen
        · rw [if_pos hin, if_pos ⟨by omega, by omega, hin.2.2⟩, show x - (a + 2) + 2 = x - a by omega]
        · rw [if_neg hin, if_neg fun h => hin ⟨by omega, by omega, h.2.2⟩]

/-- The cipher makes exactly `n` steps (42_cipher.md R141). -/
theorem cryptLoop_state (n a : Nat) (k : Word) (m : Memory) : (cryptLoop n a k m).2 = lcgStep^[n] k := by
  induction n generalizing a k m with
  | zero => rfl
  | succ n ih => rw [cryptLoop, ih, Function.iterate_succ_apply]

@[simp] theorem xorPair_epoch (m : Memory) (a : Nat) (k : Word) : (xorPair m a k).epoch = m.epoch := by simp [xorPair]

@[simp] theorem cryptLoop_epoch (n a : Nat) (k : Word) (m : Memory) : (cryptLoop n a k m).1.epoch = m.epoch := by
  induction n generalizing a k m with
  | zero => rfl
  | succ n ih => simp [cryptLoop, ih]

theorem cryptLoop_wf (n a : Nat) (k : Word) {m : Memory} (h : m.wf = true) : (cryptLoop n a k m).1.wf = true := by
  induction n generalizing a k m with
  | zero => exact h
  | succ n ih => exact ih _ _ (Memory.set_wf (Memory.set_wf h _ _) _ _)

/-- `CryptRange` on an even range inside BUF: each byte of the range is XORed with its keystream byte, no other byte
changes (42_cipher.md R141). -/
theorem cryptRange_get (k : Word) {a b : Nat} (m : Memory) (x : Nat) (hab : a ≤ b) (hb : b ≤ Config.partyLen)
    (heven : (b - a) % 2 = 0) :
    (cryptRange k a b m).1.get x = if a ≤ x ∧ x < b then m.get x ^^^ keyAt k (x - a) else m.get x := by
  rw [cryptRange, cryptLoop_get]
  by_cases hx : a ≤ x ∧ x < b
  · rw [if_pos (by omega), if_pos hx]
  · rw [if_neg (by omega), if_neg hx]

theorem cryptRange_state (k : Word) (a b : Nat) (m : Memory) : (cryptRange k a b m).2 = lcgStep^[(b - a) / 2] k :=
  cryptLoop_state _ _ _ _

@[simp] theorem cryptRange_epoch (k : Word) (a b : Nat) (m : Memory) : (cryptRange k a b m).1.epoch = m.epoch :=
  cryptLoop_epoch _ _ _ _

theorem cryptRange_wf (k : Word) (a b : Nat) {m : Memory} (h : m.wf = true) : (cryptRange k a b m).1.wf = true :=
  cryptLoop_wf _ _ _ h

theorem cryptPkm_stored (k : Word) (m : Memory) : cryptPkm 328 k m = cryptRange k 8 328 m := by
  rw [cryptPkm, if_neg (by decide)]

theorem cryptPkm_party (k : Word) (m : Memory) :
    cryptPkm 344 k m = cryptRange k 328 344 (cryptRange k 8 328 m).1 := by
  rw [cryptPkm, if_pos (by decide)]

/-- `CryptPKM` at either LEN: the blocks region and, at 344, the party region from the seed again (42_cipher.md R143). -/
theorem cryptPkm_get {len : Nat} (hlen : len = 328 ∨ len = 344) (k : Word) (m : Memory) (x : Nat) :
    (cryptPkm len k m).1.get x =
      if 8 ≤ x ∧ x < 328 then m.get x ^^^ keyAt k (x - 8)
      else if 328 ≤ x ∧ x < len then m.get x ^^^ keyAt k (x - 328)
      else m.get x := by
  have hblocks := cryptRange_get k (a := 8) (b := 328) m x (by omega) (by decide) (by decide)
  have hparty := cryptRange_get k (a := 328) (b := 344) (cryptRange k 8 328 m).1 x (by omega) (by decide) (by decide)
  obtain rfl | rfl := hlen
  · rw [cryptPkm_stored, hblocks]
    by_cases hx : 8 ≤ x ∧ x < 328
    · rw [if_pos hx, if_pos hx]
    · rw [if_neg hx, if_neg hx, if_neg (by omega)]
  · rw [cryptPkm_party, hparty, hblocks]
    by_cases hx : 8 ≤ x ∧ x < 328
    · rw [if_neg (by omega), if_pos hx, if_pos hx]
    · rw [if_neg hx, if_neg hx]

/-- The state `CryptPKM` ends on: 160 steps at 328, 8 at 344 (42_cipher.md R143). -/
theorem cryptPkm_state {len : Nat} (hlen : len = 328 ∨ len = 344) (k : Word) (m : Memory) :
    (cryptPkm len k m).2 = lcgStep^[if len = 344 then 8 else 160] k := by
  obtain rfl | rfl := hlen
  · rw [cryptPkm_stored, cryptRange_state, if_neg (by decide)]
  · rw [cryptPkm_party, cryptRange_state, if_pos rfl]

@[simp] theorem cryptPkm_epoch (len : Nat) (k : Word) (m : Memory) : (cryptPkm len k m).1.epoch = m.epoch := by
  simp only [cryptPkm]
  split
  · rw [cryptRange_epoch, cryptRange_epoch]
  · rw [cryptRange_epoch]

theorem cryptPkm_wf (len : Nat) (k : Word) {m : Memory} (h : m.wf = true) : (cryptPkm len k m).1.wf = true := by
  simp only [cryptPkm]
  split
  · exact cryptRange_wf _ _ _ (cryptRange_wf _ _ _ h)
  · exact cryptRange_wf _ _ _ h

theorem len_cases (s : State) : s.len = 328 ∨ s.len = 344 := by
  unfold State.len
  split
  · exact .inr rfl
  · exact .inl rfl

theorem shuffleIndex_lt (seed : Word) : shuffleIndex seed < 32 := Nat.mod_lt _ (by decide)

end Sys2Proof.Machine
end

