-- ==== Sys2Proof/Laws/Decode.lean ====
section
/-! SUPPORT. Fields of an encoded word, by arithmetic (30_encoding.md R82). -/

namespace Sys2Proof

/-- A field of a word given as a number (00_scope.md R8). -/
theorem fld_ofNat {n : Nat} (h : n < 2 ^ 32) (hi lo : Nat) :
    fld (BitVec.ofNat 32 n) hi lo = n / 2 ^ lo % 2 ^ (hi + 1 - lo) := by
  simp only [fld, BitVec.toNat_ofNat]
  rw [Nat.mod_eq_of_lt (show n < 2 ^ 32 from h)]

theorem fld_lt (c : Word) (hi lo : Nat) : fld c hi lo < 2 ^ (hi + 1 - lo) := Nat.mod_lt _ (Nat.two_pow_pos _)

/-- A field of a masked word (30_encoding.md R92). -/
theorem fld_and (c m : Word) (hi lo : Nat) : fld (c &&& m) hi lo = fld c hi lo &&& fld m hi lo := by
  simp only [fld, BitVec.toNat_and, Nat.and_div_two_pow, Nat.and_mod_two_pow]

/-- Where the mask has all bits of a field, a word that matches has the match value's field (30_encoding.md R92). -/
theorem fld_of_mask {c m v : Word} (h : c &&& m = v) (hi lo : Nat) (hm : fld m hi lo = 2 ^ (hi + 1 - lo) - 1) :
    fld c hi lo = fld v hi lo := by
  rw [← h, fld_and, hm, Nat.and_two_pow_sub_one_eq_mod, Nat.mod_eq_of_lt (fld_lt _ _ _)]

@[simp] theorem srcOf_bit (x : Src) : srcOf x.bit = x := by cases x <;> rfl

@[simp] theorem rowSelOf_bit (x : RowSel) : rowSelOf x.bit = x := by cases x <;> rfl

theorem reservedZero_ok {n : Nat} {i j : Instr} (h : reservedZero n i = .ok j) : n = 0 ∧ i = j := by
  unfold reservedZero at h
  split at h
  · exact ⟨‹_›, by simpa using h⟩
  · cases h

end Sys2Proof
end

