-- ==== Sys2Proof/Laws/State.lean ====
section
/-! SUPPORT. One lemma per field per update of State, so that no later proof unfolds a record update. -/

namespace Sys2Proof.Machine

variable (s : State)

-- `complete` (60_exceptions.md R170).
@[simp] theorem State.complete_ctrl : (s.complete).ctrl = s.ctrl := rfl
@[simp] theorem State.complete_status : (s.complete).status = { s.status with done := true, busy := false } := rfl
@[simp] theorem State.complete_cmdl : (s.complete).cmdl = s.cmdl := rfl
@[simp] theorem State.complete_opa : (s.complete).opa = s.opa := rfl
@[simp] theorem State.complete_seed : (s.complete).seed = s.seed := rfl
@[simp] theorem State.complete_result : (s.complete).result = s.result := rfl
@[simp] theorem State.complete_acc : (s.complete).acc = s.acc := rfl
@[simp] theorem State.complete_pos : (s.complete).pos = s.pos := rfl
@[simp] theorem State.complete_lcg : (s.complete).lcg = s.lcg := rfl
@[simp] theorem State.complete_csum : (s.complete).csum = s.csum := rfl
@[simp] theorem State.complete_buf : (s.complete).buf = s.buf := rfl
@[simp] theorem State.complete_rom : (s.complete).rom = s.rom := rfl
@[simp] theorem State.complete_wait : (s.complete).wait = s.wait := rfl
@[simp] theorem State.complete_draws : (s.complete).draws = s.draws := rfl
@[simp] theorem State.complete_inbox : (s.complete).inbox = s.inbox := rfl
@[simp] theorem State.complete_replies : (s.complete).replies = s.replies := rfl

-- `raise` (60_exceptions.md R171, R172).
@[simp] theorem State.raise_ctrl (e : CmdError) : (s.raise e).ctrl = s.ctrl := rfl
@[simp] theorem State.raise_status (e : CmdError) : (s.raise e).status = { s.status.record e with done := true, busy := false } := rfl
@[simp] theorem State.raise_cmdl (e : CmdError) : (s.raise e).cmdl = s.cmdl := rfl
@[simp] theorem State.raise_opa (e : CmdError) : (s.raise e).opa = s.opa := rfl
@[simp] theorem State.raise_seed (e : CmdError) : (s.raise e).seed = s.seed := rfl
@[simp] theorem State.raise_result (e : CmdError) : (s.raise e).result = s.result := rfl
@[simp] theorem State.raise_acc (e : CmdError) : (s.raise e).acc = s.acc := rfl
@[simp] theorem State.raise_pos (e : CmdError) : (s.raise e).pos = s.pos := rfl
@[simp] theorem State.raise_lcg (e : CmdError) : (s.raise e).lcg = s.lcg := rfl
@[simp] theorem State.raise_csum (e : CmdError) : (s.raise e).csum = s.csum := rfl
@[simp] theorem State.raise_buf (e : CmdError) : (s.raise e).buf = s.buf := rfl
@[simp] theorem State.raise_rom (e : CmdError) : (s.raise e).rom = s.rom := rfl
@[simp] theorem State.raise_wait (e : CmdError) : (s.raise e).wait = s.wait := rfl
@[simp] theorem State.raise_draws (e : CmdError) : (s.raise e).draws = s.draws := rfl
@[simp] theorem State.raise_inbox (e : CmdError) : (s.raise e).inbox = s.inbox := rfl
@[simp] theorem State.raise_replies (e : CmdError) : (s.raise e).replies = s.replies := rfl

-- `raise Busy` (60_exceptions.md R173).
@[simp] theorem State.raiseBusy_ctrl : (s.raiseBusy).ctrl = s.ctrl := rfl
@[simp] theorem State.raiseBusy_status : (s.raiseBusy).status = { s.status with errBusy := true } := rfl
@[simp] theorem State.raiseBusy_cmdl : (s.raiseBusy).cmdl = s.cmdl := rfl
@[simp] theorem State.raiseBusy_opa : (s.raiseBusy).opa = s.opa := rfl
@[simp] theorem State.raiseBusy_seed : (s.raiseBusy).seed = s.seed := rfl
@[simp] theorem State.raiseBusy_result : (s.raiseBusy).result = s.result := rfl
@[simp] theorem State.raiseBusy_acc : (s.raiseBusy).acc = s.acc := rfl
@[simp] theorem State.raiseBusy_pos : (s.raiseBusy).pos = s.pos := rfl
@[simp] theorem State.raiseBusy_lcg : (s.raiseBusy).lcg = s.lcg := rfl
@[simp] theorem State.raiseBusy_csum : (s.raiseBusy).csum = s.csum := rfl
@[simp] theorem State.raiseBusy_buf : (s.raiseBusy).buf = s.buf := rfl
@[simp] theorem State.raiseBusy_rom : (s.raiseBusy).rom = s.rom := rfl
@[simp] theorem State.raiseBusy_wait : (s.raiseBusy).wait = s.wait := rfl
@[simp] theorem State.raiseBusy_draws : (s.raiseBusy).draws = s.draws := rfl
@[simp] theorem State.raiseBusy_inbox : (s.raiseBusy).inbox = s.inbox := rfl
@[simp] theorem State.raiseBusy_replies : (s.raiseBusy).replies = s.replies := rfl

-- A STATUS write (10_state.md R26).
@[simp] theorem State.clearSticky_ctrl (d : Word) : (s.clearSticky d).ctrl = s.ctrl := rfl
@[simp] theorem State.clearSticky_cmdl (d : Word) : (s.clearSticky d).cmdl = s.cmdl := rfl
@[simp] theorem State.clearSticky_opa (d : Word) : (s.clearSticky d).opa = s.opa := rfl
@[simp] theorem State.clearSticky_seed (d : Word) : (s.clearSticky d).seed = s.seed := rfl
@[simp] theorem State.clearSticky_result (d : Word) : (s.clearSticky d).result = s.result := rfl
@[simp] theorem State.clearSticky_acc (d : Word) : (s.clearSticky d).acc = s.acc := rfl
@[simp] theorem State.clearSticky_pos (d : Word) : (s.clearSticky d).pos = s.pos := rfl
@[simp] theorem State.clearSticky_lcg (d : Word) : (s.clearSticky d).lcg = s.lcg := rfl
@[simp] theorem State.clearSticky_csum (d : Word) : (s.clearSticky d).csum = s.csum := rfl
@[simp] theorem State.clearSticky_buf (d : Word) : (s.clearSticky d).buf = s.buf := rfl
@[simp] theorem State.clearSticky_rom (d : Word) : (s.clearSticky d).rom = s.rom := rfl
@[simp] theorem State.clearSticky_wait (d : Word) : (s.clearSticky d).wait = s.wait := rfl
@[simp] theorem State.clearSticky_draws (d : Word) : (s.clearSticky d).draws = s.draws := rfl
@[simp] theorem State.clearSticky_inbox (d : Word) : (s.clearSticky d).inbox = s.inbox := rfl
@[simp] theorem State.clearSticky_replies (d : Word) : (s.clearSticky d).replies = s.replies := rfl

-- A latched command.
@[simp] theorem State.latch_ctrl (c : Word) (n : Nat) : (s.latch c n).ctrl = s.ctrl := rfl
@[simp] theorem State.latch_status (c : Word) (n : Nat) : (s.latch c n).status = { s.status with busy := true } := rfl
@[simp] theorem State.latch_cmdl (c : Word) (n : Nat) : (s.latch c n).cmdl = c := rfl
@[simp] theorem State.latch_opa (c : Word) (n : Nat) : (s.latch c n).opa = s.opa := rfl
@[simp] theorem State.latch_seed (c : Word) (n : Nat) : (s.latch c n).seed = s.seed := rfl
@[simp] theorem State.latch_result (c : Word) (n : Nat) : (s.latch c n).result = s.result := rfl
@[simp] theorem State.latch_acc (c : Word) (n : Nat) : (s.latch c n).acc = s.acc := rfl
@[simp] theorem State.latch_pos (c : Word) (n : Nat) : (s.latch c n).pos = s.pos := rfl
@[simp] theorem State.latch_lcg (c : Word) (n : Nat) : (s.latch c n).lcg = s.lcg := rfl
@[simp] theorem State.latch_csum (c : Word) (n : Nat) : (s.latch c n).csum = s.csum := rfl
@[simp] theorem State.latch_buf (c : Word) (n : Nat) : (s.latch c n).buf = s.buf := rfl
@[simp] theorem State.latch_rom (c : Word) (n : Nat) : (s.latch c n).rom = s.rom := rfl
@[simp] theorem State.latch_wait (c : Word) (n : Nat) : (s.latch c n).wait = n := rfl
@[simp] theorem State.latch_draws (c : Word) (n : Nat) : (s.latch c n).draws = s.draws := rfl
@[simp] theorem State.latch_inbox (c : Word) (n : Nat) : (s.latch c n).inbox = s.inbox := rfl
@[simp] theorem State.latch_replies (c : Word) (n : Nat) : (s.latch c n).replies = s.replies := rfl

-- An accepted CMD write (10_state.md R27).
@[simp] theorem State.accept_ctrl (c : Word) : (s.accept c).ctrl = s.ctrl := rfl
@[simp] theorem State.accept_status (c : Word) : (s.accept c).status = { s.status with busy := true } := rfl
@[simp] theorem State.accept_cmdl (c : Word) : (s.accept c).cmdl = c := rfl
@[simp] theorem State.accept_opa (c : Word) : (s.accept c).opa = s.opa := rfl
@[simp] theorem State.accept_seed (c : Word) : (s.accept c).seed = s.seed := rfl
@[simp] theorem State.accept_result (c : Word) : (s.accept c).result = s.result := rfl
@[simp] theorem State.accept_acc (c : Word) : (s.accept c).acc = s.acc := rfl
@[simp] theorem State.accept_pos (c : Word) : (s.accept c).pos = s.pos := rfl
@[simp] theorem State.accept_lcg (c : Word) : (s.accept c).lcg = s.lcg := rfl
@[simp] theorem State.accept_csum (c : Word) : (s.accept c).csum = s.csum := rfl
@[simp] theorem State.accept_buf (c : Word) : (s.accept c).buf = s.buf := rfl
@[simp] theorem State.accept_rom (c : Word) : (s.accept c).rom = s.rom := rfl
@[simp] theorem State.accept_wait (c : Word) : (s.accept c).wait = Config.latency s.draws c := rfl
@[simp] theorem State.accept_draws (c : Word) : (s.accept c).draws = s.draws + 1 := rfl
@[simp] theorem State.accept_inbox (c : Word) : (s.accept c).inbox = s.inbox := rfl
@[simp] theorem State.accept_replies (c : Word) : (s.accept c).replies = s.replies := rfl

-- A waiting cycle.
@[simp] theorem State.elapse_ctrl : (s.elapse).ctrl = s.ctrl := rfl
@[simp] theorem State.elapse_status : (s.elapse).status = s.status := rfl
@[simp] theorem State.elapse_cmdl : (s.elapse).cmdl = s.cmdl := rfl
@[simp] theorem State.elapse_opa : (s.elapse).opa = s.opa := rfl
@[simp] theorem State.elapse_seed : (s.elapse).seed = s.seed := rfl
@[simp] theorem State.elapse_result : (s.elapse).result = s.result := rfl
@[simp] theorem State.elapse_acc : (s.elapse).acc = s.acc := rfl
@[simp] theorem State.elapse_pos : (s.elapse).pos = s.pos := rfl
@[simp] theorem State.elapse_lcg : (s.elapse).lcg = s.lcg := rfl
@[simp] theorem State.elapse_csum : (s.elapse).csum = s.csum := rfl
@[simp] theorem State.elapse_buf : (s.elapse).buf = s.buf := rfl
@[simp] theorem State.elapse_rom : (s.elapse).rom = s.rom := rfl
@[simp] theorem State.elapse_wait : (s.elapse).wait = s.wait - 1 := rfl
@[simp] theorem State.elapse_draws : (s.elapse).draws = s.draws := rfl
@[simp] theorem State.elapse_inbox : (s.elapse).inbox = s.inbox := rfl
@[simp] theorem State.elapse_replies : (s.elapse).replies = s.replies := rfl

-- DECRYPTED written.
@[simp] theorem State.setDecrypted_ctrl (d : Bool) : (s.setDecrypted d).ctrl = s.ctrl := rfl
@[simp] theorem State.setDecrypted_status (d : Bool) : (s.setDecrypted d).status = { s.status with decrypted := d } := rfl
@[simp] theorem State.setDecrypted_cmdl (d : Bool) : (s.setDecrypted d).cmdl = s.cmdl := rfl
@[simp] theorem State.setDecrypted_opa (d : Bool) : (s.setDecrypted d).opa = s.opa := rfl
@[simp] theorem State.setDecrypted_seed (d : Bool) : (s.setDecrypted d).seed = s.seed := rfl
@[simp] theorem State.setDecrypted_result (d : Bool) : (s.setDecrypted d).result = s.result := rfl
@[simp] theorem State.setDecrypted_acc (d : Bool) : (s.setDecrypted d).acc = s.acc := rfl
@[simp] theorem State.setDecrypted_pos (d : Bool) : (s.setDecrypted d).pos = s.pos := rfl
@[simp] theorem State.setDecrypted_lcg (d : Bool) : (s.setDecrypted d).lcg = s.lcg := rfl
@[simp] theorem State.setDecrypted_csum (d : Bool) : (s.setDecrypted d).csum = s.csum := rfl
@[simp] theorem State.setDecrypted_buf (d : Bool) : (s.setDecrypted d).buf = s.buf := rfl
@[simp] theorem State.setDecrypted_rom (d : Bool) : (s.setDecrypted d).rom = s.rom := rfl
@[simp] theorem State.setDecrypted_wait (d : Bool) : (s.setDecrypted d).wait = s.wait := rfl
@[simp] theorem State.setDecrypted_draws (d : Bool) : (s.setDecrypted d).draws = s.draws := rfl
@[simp] theorem State.setDecrypted_inbox (d : Bool) : (s.setDecrypted d).inbox = s.inbox := rfl
@[simp] theorem State.setDecrypted_replies (d : Bool) : (s.setDecrypted d).replies = s.replies := rfl

-- PKAPP's writes (40_bitfield.md R114).
@[simp] theorem State.append_ctrl (w : Nat) : (s.append w).ctrl = s.ctrl := rfl
@[simp] theorem State.append_status (w : Nat) : (s.append w).status = { s.status with clamp := clampFlag s.status.clamp s.opa.toNat w } := rfl
@[simp] theorem State.append_cmdl (w : Nat) : (s.append w).cmdl = s.cmdl := rfl
@[simp] theorem State.append_opa (w : Nat) : (s.append w).opa = s.opa := rfl
@[simp] theorem State.append_seed (w : Nat) : (s.append w).seed = s.seed := rfl
@[simp] theorem State.append_result (w : Nat) : (s.append w).result = s.result := rfl
@[simp] theorem State.append_lcg (w : Nat) : (s.append w).lcg = s.lcg := rfl
@[simp] theorem State.append_csum (w : Nat) : (s.append w).csum = s.csum := rfl
@[simp] theorem State.append_buf (w : Nat) : (s.append w).buf = s.buf := rfl
@[simp] theorem State.append_rom (w : Nat) : (s.append w).rom = s.rom := rfl
@[simp] theorem State.append_wait (w : Nat) : (s.append w).wait = s.wait := rfl
@[simp] theorem State.append_draws (w : Nat) : (s.append w).draws = s.draws := rfl
@[simp] theorem State.append_inbox (w : Nat) : (s.append w).inbox = s.inbox := rfl
@[simp] theorem State.append_replies (w : Nat) : (s.append w).replies = s.replies := rfl

-- DECRYPT's work (42_cipher.md R144).
@[simp] theorem State.decryptArray_ctrl : (s.decryptArray).ctrl = s.ctrl := rfl
@[simp] theorem State.decryptArray_status : (s.decryptArray).status = s.status := rfl
@[simp] theorem State.decryptArray_cmdl : (s.decryptArray).cmdl = s.cmdl := rfl
@[simp] theorem State.decryptArray_opa : (s.decryptArray).opa = s.opa := rfl
@[simp] theorem State.decryptArray_seed : (s.decryptArray).seed = s.seed := rfl
@[simp] theorem State.decryptArray_result : (s.decryptArray).result = s.result := rfl
@[simp] theorem State.decryptArray_acc : (s.decryptArray).acc = s.acc := rfl
@[simp] theorem State.decryptArray_pos : (s.decryptArray).pos = s.pos := rfl
@[simp] theorem State.decryptArray_csum : (s.decryptArray).csum = s.csum := rfl
@[simp] theorem State.decryptArray_rom : (s.decryptArray).rom = s.rom := rfl
@[simp] theorem State.decryptArray_wait : (s.decryptArray).wait = s.wait := rfl
@[simp] theorem State.decryptArray_draws : (s.decryptArray).draws = s.draws := rfl
@[simp] theorem State.decryptArray_inbox : (s.decryptArray).inbox = s.inbox := rfl
@[simp] theorem State.decryptArray_replies : (s.decryptArray).replies = s.replies := rfl

-- ENCRYPT's work (42_cipher.md R145).
@[simp] theorem State.encryptArray_ctrl : (s.encryptArray).ctrl = s.ctrl := rfl
@[simp] theorem State.encryptArray_status : (s.encryptArray).status = s.status := rfl
@[simp] theorem State.encryptArray_cmdl : (s.encryptArray).cmdl = s.cmdl := rfl
@[simp] theorem State.encryptArray_opa : (s.encryptArray).opa = s.opa := rfl
@[simp] theorem State.encryptArray_seed : (s.encryptArray).seed = s.seed := rfl
@[simp] theorem State.encryptArray_result : (s.encryptArray).result = s.result := rfl
@[simp] theorem State.encryptArray_acc : (s.encryptArray).acc = s.acc := rfl
@[simp] theorem State.encryptArray_pos : (s.encryptArray).pos = s.pos := rfl
@[simp] theorem State.encryptArray_csum : (s.encryptArray).csum = s.csum := rfl
@[simp] theorem State.encryptArray_rom : (s.encryptArray).rom = s.rom := rfl
@[simp] theorem State.encryptArray_wait : (s.encryptArray).wait = s.wait := rfl
@[simp] theorem State.encryptArray_draws : (s.encryptArray).draws = s.draws := rfl
@[simp] theorem State.encryptArray_inbox : (s.encryptArray).inbox = s.inbox := rfl
@[simp] theorem State.encryptArray_replies : (s.encryptArray).replies = s.replies := rfl

-- The reset event (70_reset_and_hazards.md R190).
@[simp] theorem State.resetEvent_ctrl : (s.resetEvent).ctrl = Ctrl.reset := rfl
@[simp] theorem State.resetEvent_status : (s.resetEvent).status = Status.reset := rfl
@[simp] theorem State.resetEvent_cmdl : (s.resetEvent).cmdl = 0 := rfl
@[simp] theorem State.resetEvent_opa : (s.resetEvent).opa = 0 := rfl
@[simp] theorem State.resetEvent_seed : (s.resetEvent).seed = 0 := rfl
@[simp] theorem State.resetEvent_result : (s.resetEvent).result = 0 := rfl
@[simp] theorem State.resetEvent_acc : (s.resetEvent).acc = 0 := rfl
@[simp] theorem State.resetEvent_pos : (s.resetEvent).pos = 0 := rfl
@[simp] theorem State.resetEvent_lcg : (s.resetEvent).lcg = 0 := rfl
@[simp] theorem State.resetEvent_csum : (s.resetEvent).csum = 0 := rfl
@[simp] theorem State.resetEvent_buf : (s.resetEvent).buf = ⟨[], s.buf.epoch + 1⟩ := rfl
@[simp] theorem State.resetEvent_rom : (s.resetEvent).rom = s.rom := rfl
@[simp] theorem State.resetEvent_wait : (s.resetEvent).wait = 0 := rfl
@[simp] theorem State.resetEvent_draws : (s.resetEvent).draws = s.draws := rfl
@[simp] theorem State.resetEvent_inbox : (s.resetEvent).inbox = s.inbox := rfl
@[simp] theorem State.resetEvent_replies : (s.resetEvent).replies = s.replies := rfl

-- The status bits a STATUS write clears, and those it cannot (10_state.md R26).
@[simp] theorem State.clearSticky_busy (d : Word) : (s.clearSticky d).status.busy = s.status.busy := rfl
@[simp] theorem State.clearSticky_done (d : Word) :
    (s.clearSticky d).status.done = (s.status.done && !d.getLsbD 1) := rfl
@[simp] theorem State.clearSticky_errIllegal (d : Word) :
    (s.clearSticky d).status.errIllegal = (s.status.errIllegal && !d.getLsbD 2) := rfl
@[simp] theorem State.clearSticky_errContract (d : Word) :
    (s.clearSticky d).status.errContract = (s.status.errContract && !d.getLsbD 3) := rfl
@[simp] theorem State.clearSticky_errBusy (d : Word) :
    (s.clearSticky d).status.errBusy = (s.status.errBusy && !d.getLsbD 4) := rfl
@[simp] theorem State.clearSticky_clamp (d : Word) :
    (s.clearSticky d).status.clamp = (s.status.clamp && !d.getLsbD 5) := rfl
@[simp] theorem State.clearSticky_mismatch (d : Word) : (s.clearSticky d).status.mismatch = s.status.mismatch := rfl
@[simp] theorem State.clearSticky_decrypted (d : Word) :
    (s.clearSticky d).status.decrypted = s.status.decrypted := rfl

-- Recording an error leaves every bit but its own.
@[simp] theorem Status.record_clamp (st : Status) (e : CmdError) : (st.record e).clamp = st.clamp := by cases e <;> rfl
@[simp] theorem Status.record_mismatch (st : Status) (e : CmdError) : (st.record e).mismatch = st.mismatch := by
  cases e <;> rfl
@[simp] theorem Status.record_decrypted (st : Status) (e : CmdError) : (st.record e).decrypted = st.decrypted := by
  cases e <;> rfl
@[simp] theorem Status.record_errBusy (st : Status) (e : CmdError) : (st.record e).errBusy = st.errBusy := by
  cases e <;> rfl

end Sys2Proof.Machine
end

