-- ==== Sys2Proof/Laws/Exec.lean ====
section
/-! SUPPORT. Every meaning answers a next state (10_state.md R20: a command runs to completion). -/

namespace Sys2Proof.Machine

/-- No command stops (60_exceptions.md R170 to R172). -/
theorem exec_next (i : Instr) (s : State) : ∃ t, exec i s = .next t := by
  cases i <;> simp only [exec, execNop, execGetbit, execSetbit, execPkclr, execPkapp, execUnpk, execPerm, execCrypt,
    execDecrypt, execEncrypt, execDecif, execCsum, execCsumst, execCsumvf] <;> (try split) <;> exact ⟨_, rfl⟩

/-- No command answers the host in its place: the replies stay (20_memory.md R61). -/
theorem exec_replies {i : Instr} {s t : State} (h : exec i s = .next t) : t.replies = s.replies := by
  cases i <;> simp only [exec, execNop, execGetbit, execSetbit, execPkclr, execPkapp, execUnpk, execPerm, execCrypt,
    execDecrypt, execEncrypt, execDecif, execCsum, execCsumst, execCsumvf] at h <;> (try split at h) <;> cases h <;> rfl

/-- The end of a command in flight leaves the replies. -/
theorem runCommand_replies {s t : State} (h : runCommand s = .next t) : t.replies = s.replies := by
  unfold runCommand at h
  split at h
  · exact exec_replies h
  · cases h
    rfl

/-- The end of a command in flight is a next state, for every word (60_exceptions.md R170, R171). -/
theorem runCommand_next (s : State) : ∃ t, runCommand s = .next t := by
  unfold runCommand
  split
  · exact exec_next _ _
  · exact ⟨_, rfl⟩

/-- A cycle is the host's turn and then the sequencer's (10_state.md R20). -/
theorem step_of_hostTurn {s h : State} (hh : hostTurn s = .next h) : step s = sequencerTurn s h := by
  rw [step, hh]

/-- The last cycle of a command in flight, after the host's turn (10_state.md R20). -/
theorem sequencerTurn_last {s h : State} (hs : s.status.busy = true) (hh : h.status.busy = true) (hw : h.wait = 0) :
    sequencerTurn s h = runCommand h := by
  simp [sequencerTurn, inFlight, hs, hh, hw]

/-- A cycle before the last, after the host's turn (70_reset_and_hazards.md R203). -/
theorem sequencerTurn_wait {s h : State} (hs : s.status.busy = true) (hh : h.status.busy = true) (hw : h.wait ≠ 0) :
    sequencerTurn s h = .next h.elapse := by
  simp [sequencerTurn, inFlight, hs, hh, hw]

/-- A cycle in which no command was in flight when it began (10_state.md R20). -/
theorem sequencerTurn_idle {s h : State} (hs : s.status.busy = false) : sequencerTurn s h = .next h := by
  simp [sequencerTurn, inFlight, hs]

end Sys2Proof.Machine
end

