-- ==== Sys2Proof/Laws/HostProgram.lean ====
section
/-! SUPPORT. What the end of a host program's run says (70_reset_and_hazards.md R206). -/

namespace Sys2Proof.Machine

/-- Bit 0 of the STATUS word is BUSY (10_state.md R25). -/
theorem Status.toWord_busy (st : Status) : st.toWord.getLsbD 0 = st.busy := by
  obtain ⟨b, d, i, c, e, l, m, x⟩ := st
  cases b <;> cases d <;> cases i <;> cases c <;> cases e <;> cases l <;> cases m <;> cases x <;> rfl

/-- The host's turn in which it reads STATUS (10_state.md R36). -/
theorem hostTurn_readStatus (s : State) : hostTurn { s with inbox := [rdEvent .status] }
    = .next { s with inbox := [], replies := okReply s.status.toWord :: s.replies } := by
  simp [hostTurn, rdEvent, State.answer, State.perform, State.portRead, target, regAt, Reg.offset, Reg.freeBits, Size.bytes,
    State.regValue]

/-- A cycle in which the host reads STATUS with BUSY = 0: no command is in flight, and nothing but the reply changes. -/
theorem step_reads_idle {s t : State} (hs : step { s with inbox := [rdEvent .status] } = .next t)
    (ht : lastBusy t = false) :
    s.status.busy = false ∧ t = { s with inbox := [], replies := okReply s.status.toWord :: s.replies } := by
  rw [step_of_hostTurn (hostTurn_readStatus s)] at hs
  cases hb : s.status.busy
  · rw [sequencerTurn_idle (s := { s with inbox := [rdEvent .status] }) hb] at hs
    cases hs
    exact ⟨rfl, rfl⟩
  · have hr : t.replies = okReply s.status.toWord :: s.replies := by
      by_cases hw : s.wait = 0
      · rw [sequencerTurn_last (s := { s with inbox := [rdEvent .status] })
          (h := { s with inbox := [], replies := okReply s.status.toWord :: s.replies }) hb hb hw] at hs
        exact runCommand_replies hs
      · rw [sequencerTurn_wait (s := { s with inbox := [rdEvent .status] })
          (h := { s with inbox := [], replies := okReply s.status.toWord :: s.replies }) hb hb hw] at hs
        cases hs
        rfl
    rw [lastBusy, hr] at ht
    exact absurd ((Status.toWord_busy _).symm.trans ht) (by simp [hb])

/-- A run that is over ended at a STATUS read with BUSY = 0, after which no move issues a command, and its state is the
block's state at that read (70_reset_and_hazards.md R206). -/
theorem runFrom_over {issued : Bool} {gaps : List Nat} {moves : List HostMove} {s t : State}
    (h : runFrom issued gaps moves s = .next (.over t)) :
    ∃ u : State, u.status.busy = false ∧ t = { u with inbox := [], replies := okReply u.status.toWord :: u.replies } ∧
      (issued = true ∨ moves.any HostMove.issues = true) := by
  induction gaps generalizing issued moves s with
  | nil => cases moves <;> cases h
  | cons k gaps ih =>
    cases moves with
    | nil => cases h
    | cons m rest =>
      simp only [runFrom] at h
      split at h
      · rename_i v hv
        split at h
        · rename_i he
          cases h
          simp only [endsRun, Bool.and_eq_true, Bool.not_eq_true'] at he
          unfold eventAfter at hv
          split at hv
          · rename_i u _
            rw [show m.hostEvent = rdEvent .status from of_decide_eq_true he.1.2] at hv
            obtain ⟨hb, ht⟩ := step_reads_idle hv he.2
            refine ⟨u, hb, ht, ?_⟩
            have hi := he.1.1.1
            rw [Bool.or_eq_true] at hi
            exact hi.imp_right fun hm => by rw [List.any_cons, hm, Bool.true_or]
          · cases hv
          · cases hv
        · obtain ⟨u, hb, ht, hi⟩ := ih h
          refine ⟨u, hb, ht, ?_⟩
          have hn : (m.next rest v).any HostMove.issues = true → rest.any HostMove.issues = true := by
            unfold HostMove.next
            split
            · exact id
            · split
              · exact id
              · exact id
          rw [Bool.or_eq_true] at hi
          rw [List.any_cons, Bool.or_eq_true]
          tauto
      · cases h
      · cases h

/-- A run that is over leaves no command in flight, so its observation is of a block at rest. -/
theorem runMoves_over {gaps : List Nat} {moves : List HostMove} {s t : State}
    (h : runMoves gaps moves s = .next (.over t)) : t.status.busy = false ∧ moves.any HostMove.issues = true := by
  obtain ⟨u, hb, rfl, hi⟩ := runFrom_over h
  exact ⟨hb, hi.resolve_left Bool.false_ne_true⟩

end Sys2Proof.Machine
end

