-- ==== Sys2Proof/Laws/Operands.lean ====
section
/-! SUPPORT. What the contract checks, the saturation, the bit write, the target of an access, a byte of a little-endian
value and an admissible pair of tables say, once each. -/

namespace Sys2Proof.Machine

/-- PKAPP's contract (40_bitfield.md R114). -/
theorem appendOk_iff (s : State) (w : Nat) : s.appendOk w = true ↔ w ≠ 0 ∧ s.pos.toNat + w ≤ 32 := by
  simp [State.appendOk]

/-- UNPK's contract (40_bitfield.md R115). -/
theorem fieldOk_iff (off w : Nat) : fieldOk off w = true ↔ w ≠ 0 ∧ off + w ≤ 32 := by simp [fieldOk]

/-- CRYPT's contract (42_cipher.md R142). -/
theorem rangeOk_iff (s : State) (a b : Nat) : s.rangeOk a b = true ↔ a < b ∧ b ≤ s.len ∧ (b - a) % 2 = 0 := by
  simp [State.rangeOk, and_assoc]

/-- The checksum commands' contract (43_checksum.md R161). -/
theorem sumEndOk_iff (s : State) (e : Nat) : s.sumEndOk e = true ↔ 8 ≤ e ∧ e ≤ s.len ∧ e % 2 = 0 := by
  simp [State.sumEndOk, Config.hdrLen, and_assoc]

/-- Saturation is the minimum of the value and the greatest of the width (40_bitfield.md R114). -/
theorem saturate_eq_min (v w : Nat) : saturate v w = min v (2 ^ w - 1) := by
  unfold saturate maxField
  split <;> omega

/-- An access to a register word names the register (20_memory.md R65). -/
theorem target_reg {addr : Nat} (h : addr < 0x400) (h4 : addr % 4 = 0) : target addr 4 = .reg (regAt addr) := by
  unfold target
  rw [if_pos h, if_pos ⟨rfl, h4⟩]

/-- A naturally aligned access inside the window names its bytes (20_memory.md R63). -/
theorem target_window {a n : Nat} (h : a < 344) (hn : a % n = 0) : target (0x400 + a) n = .window a := by
  unfold target
  simp only [Config.partyLen]
  rw [if_neg (by omega), if_pos (by omega), Nat.add_sub_cancel_left, if_pos hn]

/-- Every other access names nothing (20_memory.md R64, R65, R66). -/
theorem target_error {addr n : Nat}
    (h : (addr < 0x400 ∧ (n ≠ 4 ∨ addr % 4 ≠ 0)) ∨ (0x400 ≤ addr ∧ addr < 0x558 ∧ (addr - 0x400) % n ≠ 0) ∨ 0x558 ≤ addr) :
    target addr n = .error := by
  unfold target
  simp only [Config.partyLen]
  obtain h | h | h := h
  · rw [if_pos h.1, if_neg (by omega)]
  · rw [if_neg (by omega), if_pos (by omega), if_neg (by omega)]
  · rw [if_neg (by omega), if_neg (by omega)]

/-- Byte `k` of a little-endian read (20_memory.md R62). -/
theorem Memory.memRead_byte (m : Memory) {n k : Nat} (a : Nat) (hk : k < n) :
    m.memRead a n / 256 ^ k % 256 = (m.get (a + k)).toNat := by
  induction n generalizing a k with
  | zero => omega
  | succ n ih =>
    have hb := (m.get a).isLt
    cases k with
    | zero => simp [Memory.memRead]; omega
    | succ k =>
      have hdiv : ((m.get a).toNat + 256 * m.memRead (a + 1) n) / 256 = m.memRead (a + 1) n := by omega
      rw [Memory.memRead, Nat.pow_succ', ← Nat.div_div_eq_div_mul, hdiv, ih (a + 1) (by omega),
        show a + 1 + k = a + (k + 1) by omega]

/-- Constraint (c) of 41_permute.md R133, as `Tables.admissible` says it. -/
theorem admissible_row {t : Config.Tables} (h : t.admissible = true) {i blk : Nat} (hi : i < 32) (hb : blk < 4) :
    t.row i (t.row (t.invRow i) blk) = blk ∧ t.row (t.invRow i) (t.row i blk) = blk := by
  simp only [Config.Tables.admissible, Bool.and_eq_true, List.all_eq_true, List.mem_range, beq_iff_eq] at h
  exact h.1.2 i hi blk hb

end Sys2Proof.Machine
end

