-- ==== Sys2Proof/Laws/PerInstr.lean ====
section
/-! SUPPORT. EncodeFits: the encoder of a well-formed command stays inside the 32-bit command word and its OP field, bits
7:0, is the opcode of its row (30_encoding.md R80, R81, R92). -/

namespace Sys2Proof.Laws.EncodeFits

/-- OP of each row (30_encoding.md R92). -/
def opcode : Instr → Nat
  | .nop => 0x00
  | .getbit _ _ => 0x01
  | .setbit _ _ _ => 0x02
  | .pkclr => 0x03
  | .pkapp _ => 0x04
  | .unpk _ _ _ => 0x05
  | .perm _ _ => 0x10
  | .crypt _ _ => 0x20
  | .decrypt => 0x21
  | .encrypt => 0x22
  | .decif => 0x23
  | .csum _ => 0x30
  | .csumst _ => 0x30
  | .csumvf _ => 0x30

def Statement (i : Instr) : Prop := i.wf = true → encodeNat i < 2 ^ 32 ∧ encodeNat i % 2 ^ 8 = opcode i

theorem nop : Statement .nop := fun _ => by decide

theorem getbit (addr bit : Nat) : Statement (.getbit addr bit) := fun h => by
  simp only [Instr.wf, Bool.and_eq_true, decide_eq_true_eq] at h
  simp only [encodeNat, opcode]
  omega

theorem setbit (addr bit : Nat) (val : Bool) : Statement (.setbit addr bit val) := fun h => by
  simp only [Instr.wf, Bool.and_eq_true, decide_eq_true_eq] at h
  have := Bool.toNat_le val
  simp only [encodeNat, opcode]
  omega

theorem pkclr : Statement .pkclr := fun _ => by decide

theorem pkapp (w : Nat) : Statement (.pkapp w) := fun h => by
  simp only [Instr.wf, decide_eq_true_eq] at h
  simp only [encodeNat, opcode]
  omega

theorem unpk (off w : Nat) (src : Src) : Statement (.unpk off w src) := fun h => by
  simp only [Instr.wf, Bool.and_eq_true, decide_eq_true_eq] at h
  cases src <;> simp only [encodeNat, opcode, Src.bit] <;> omega

theorem perm (idx : Nat) (sel : RowSel) : Statement (.perm idx sel) := fun h => by
  simp only [Instr.wf, decide_eq_true_eq] at h
  cases sel <;> simp only [encodeNat, opcode, RowSel.bit] <;> omega

theorem crypt (start stop : Nat) : Statement (.crypt start stop) := fun h => by
  simp only [Instr.wf, Bool.and_eq_true, decide_eq_true_eq] at h
  simp only [encodeNat, opcode]
  omega

theorem decrypt : Statement .decrypt := fun _ => by decide

theorem encrypt : Statement .encrypt := fun _ => by decide

theorem decif : Statement .decif := fun _ => by decide

theorem csum (stop : Nat) : Statement (.csum stop) := fun h => by
  simp only [Instr.wf, decide_eq_true_eq] at h
  simp only [encodeNat, opcode]
  omega

theorem csumst (stop : Nat) : Statement (.csumst stop) := fun h => by
  simp only [Instr.wf, decide_eq_true_eq] at h
  simp only [encodeNat, opcode]
  omega

theorem csumvf (stop : Nat) : Statement (.csumvf stop) := fun h => by
  simp only [Instr.wf, decide_eq_true_eq] at h
  simp only [encodeNat, opcode]
  omega

end Sys2Proof.Laws.EncodeFits
end

