-- ==== Sys2Proof/Laws/Port.lean ====
section
/-! SUPPORT. What a transaction and a host's turn can do (20_memory.md R69, 70_reset_and_hazards.md R205). -/

namespace Sys2Proof.Machine

/-- A read can only draw a free value (20_memory.md R69). -/
theorem portRead_cases (s : State) (addr n : Nat) :
    (s.portRead addr n).1 = s ∨ (s.portRead addr n).1 = { s with draws := s.draws + 1 } := by
  unfold State.portRead State.drawRead
  split
  · exact .inl rfl
  · split
    · exact .inr rfl
    · exact .inl rfl
  · split
    · exact .inr rfl
    · exact .inl rfl

/-- Everything a write can do: nothing, a sticky clear, ERR_BUSY, or, while BUSY = 0, an accepted command or one register or
BUF written (20_memory.md R69, 70_reset_and_hazards.md R205). -/
theorem portWrite_cases (s : State) (addr n : Nat) (d : Word) :
    (s.portWrite addr n d).1 = s ∨ (s.portWrite addr n d).1 = s.clearSticky d ∨
    (s.status.busy = true ∧ (s.portWrite addr n d).1 = s.raiseBusy) ∨
    (s.status.busy = false ∧
      ((s.portWrite addr n d).1 = s.accept d ∨ (s.portWrite addr n d).1 = { s with ctrl := Ctrl.ofWord d } ∨
       (s.portWrite addr n d).1 = { s with opa := d } ∨ (s.portWrite addr n d).1 = { s with seed := d } ∨
       ∃ a, (s.portWrite addr n d).1 = { s with buf := s.buf.memWrite a n d.toNat })) := by
  unfold State.portWrite
  split
  · exact .inl rfl
  · rename_i r _
    cases hb : s.status.busy <;> cases r <;> simp [State.regWrite, State.unlessBusy, hb]
  · rename_i a _
    cases hb : s.status.busy
    · exact .inr (.inr (.inr ⟨rfl, .inr (.inr (.inr (.inr ⟨a, by simp [State.unlessBusy, hb]⟩)))⟩))
    · exact .inr (.inr (.inl ⟨rfl, by simp [State.unlessBusy, hb]⟩))

/-- A transaction never clears BUSY (10_state.md R25). -/
theorem perform_busy (s : State) (t : Transaction) (h : s.status.busy = true) : (s.perform t).1.status.busy = true := by
  cases t with
  | read addr size =>
    obtain he | he := portRead_cases s addr.toNat size.bytes <;> simp [State.perform, he, h]
  | write addr size d =>
    obtain he | he | ⟨_, he⟩ | ⟨hb, _⟩ := portWrite_cases s addr.toNat size.bytes d
    · simp [State.perform, he, h]
    · simp [State.perform, he, h]
    · simp [State.perform, he, h]
    · simp [h] at hb

/-- A transaction while a command is in flight leaves the latch, the wait, the registers commands read, BUF and the ROM as
they are (20_memory.md R75). -/
theorem perform_frame_busy (s : State) (t : Transaction) (h : s.status.busy = true) :
    (s.perform t).1.cmdl = s.cmdl ∧ (s.perform t).1.wait = s.wait ∧ (s.perform t).1.ctrl = s.ctrl ∧
    (s.perform t).1.opa = s.opa ∧ (s.perform t).1.seed = s.seed ∧ (s.perform t).1.buf = s.buf ∧
    (s.perform t).1.acc = s.acc ∧ (s.perform t).1.pos = s.pos ∧ (s.perform t).1.rom = s.rom := by
  cases t with
  | read addr size =>
    obtain he | he := portRead_cases s addr.toNat size.bytes <;> simp [State.perform, he]
  | write addr size d =>
    obtain he | he | ⟨_, he⟩ | ⟨hb, _⟩ := portWrite_cases s addr.toNat size.bytes d
    · simp [State.perform, he]
    · simp [State.perform, he]
    · simp [State.perform, he]
    · simp [h] at hb

/-- Everything a host's turn can do. -/
theorem hostTurn_cases {s h : State} (ht : hostTurn s = .next h) :
    (h = s ∧ s.inbox = []) ∨ (h = { s with inbox := s.inbox.tail } ∧ s.inbox.head? = some .idle) ∨
    (∃ t, s.inbox.head? = some (.transact t) ∧ h = State.answer { s with inbox := s.inbox.tail } t) ∨
    (s.inbox.head? = some .reset ∧ h = State.resetEvent { s with inbox := s.inbox.tail }) := by
  unfold hostTurn at ht
  split at ht
  · cases ht
    exact .inl ⟨rfl, ‹_›⟩
  · rename_i rest hi
    cases ht
    exact .inr (.inl ⟨by rw [hi]; rfl, by rw [hi]; rfl⟩)
  · rename_i t rest hi
    cases ht
    exact .inr (.inr (.inl ⟨t, by rw [hi]; rfl, by rw [hi]; rfl⟩))
  · rename_i rest hi
    cases ht
    exact .inr (.inr (.inr ⟨by rw [hi]; rfl, by rw [hi]; rfl⟩))
  · cases ht

end Sys2Proof.Machine
end

