-- ==== Sys2Proof/Laws/Step.lean ====
section
/-! SUPPORT. Everything a step can do (10_state.md R20, 60_exceptions.md R170, R171). -/

namespace Sys2Proof.Machine

/-- A step that goes on: the host's turn alone, the host's turn and a waiting cycle, or the host's turn and the end of the
command in flight, by IllegalCommand or by its meaning. -/
theorem step_cases {s t : State} (hs : step s = .next t) :
    ∃ h, hostTurn s = .next h ∧
      ((inFlight s h = false ∧ t = h) ∨ (inFlight s h = true ∧ h.wait ≠ 0 ∧ t = h.elapse) ∨
       (inFlight s h = true ∧ h.wait = 0 ∧ (∃ r, decode h.cmdl = .error r) ∧ t = h.raise .illegalCommand) ∨
       (inFlight s h = true ∧ h.wait = 0 ∧ ∃ i, decode h.cmdl = .ok i ∧ exec i h = .next t)) := by
  unfold step at hs
  split at hs
  · rename_i h hh
    refine ⟨h, hh, ?_⟩
    unfold sequencerTurn at hs
    split at hs
    · split at hs
      · rename_i hf hw
        unfold runCommand at hs
        split at hs
        · exact .inr (.inr (.inr ⟨hf, hw, _, ‹_›, hs⟩))
        · cases hs
          exact .inr (.inr (.inl ⟨hf, hw, ⟨_, ‹_›⟩, rfl⟩))
      · cases hs
        exact .inr (.inl ⟨‹_›, ‹_›, rfl⟩)
    · rename_i hf
      cases hs
      exact .inl ⟨Bool.eq_false_iff.mpr hf, rfl⟩
  · cases hs
  · cases hs

end Sys2Proof.Machine
end

