-- ==== Sys2Proof/Tests/Slice0.lean ====
section
/-! SUPPORT. The model's own tests. Expected results come from spec/95_test_vectors.md (the section is named at each test), or
are worked out by hand from the rule named there. The second half shows, for every statement with hypotheses, states and
operands that meet them. -/

open Sys2Proof Sys2Proof.Machine Sys2Proof.Claims

namespace Sys2Proof.Tests

/-! ## Small states -/

/-- The cells of a string of bytes from address `a` on. -/
def cellsFrom (a : Nat) : List Byte → List Host.Cell
  | [] => []
  | b :: rest => (a, b) :: cellsFrom (a + 1) rest

/-- A buffer in which only the bytes `bs` from `a` on are listed. -/
def bytesAt (a : Nat) (bs : List Byte) : Memory := ⟨cellsFrom a bs, 0⟩

/-- `n` zero bytes from `a` on. -/
def zerosAt (a n : Nat) : Memory := bytesAt a (List.replicate n 0)

/-- The buffer `pat` of 95_test_vectors.md: byte `i` is `i & 0xFF`. -/
def pat : Memory := bytesAt 0 ((List.range 344).map (BitVec.ofNat 8))

/-- The state after reset with FORM and BUF given. -/
def st (form : Bool) (m : Memory) : State := { State.reset with ctrl := ⟨form, false⟩, buf := m }

/-- The outcome is a next state with the property `p`. -/
def after (o : Host.Outcome State Fault Refusal) (p : State → Bool) : Bool :=
  match o with
  | .next t => p t
  | .fault _ => false
  | .refused _ => false

/-- A command in flight: word `c`, `n` cycles before its last, the host's events given. -/
def flying (c : Word) (n : Nat) (inbox : List HostEvent) : State := { State.reset.latch c n with inbox := inbox }

/-- The state after reset with POS `p`, ACC `acc` and OPA `v`. -/
def packing (p : BitVec 6) (acc v : Word) : State := { State.reset with pos := p, acc := acc, opa := v }

/-! ## Well-formedness: an ill-formed command for each check, which the check refuses (30_encoding.md R99) -/

theorem test_wf_getbit_addr : Instr.wf (.getbit 512 0) = false := by decide
theorem test_wf_getbit_bit : Instr.wf (.getbit 0 256) = false := by decide
theorem test_wf_setbit_addr : Instr.wf (.setbit 512 0 true) = false := by decide
theorem test_wf_setbit_bit : Instr.wf (.setbit 0 256 true) = false := by decide
theorem test_wf_pkapp_w : Instr.wf (.pkapp 64) = false := by decide
theorem test_wf_unpk_off : Instr.wf (.unpk 64 0 .opa) = false := by decide
theorem test_wf_unpk_w : Instr.wf (.unpk 0 64 .acc) = false := by decide
theorem test_wf_perm_idx : Instr.wf (.perm 32 .direct) = false := by decide
theorem test_wf_crypt_start : Instr.wf (.crypt 512 0) = false := by decide
theorem test_wf_crypt_stop : Instr.wf (.crypt 0 512) = false := by decide
theorem test_wf_csum : Instr.wf (.csum 512) = false := by decide
theorem test_wf_csumst : Instr.wf (.csumst 512) = false := by decide
theorem test_wf_csumvf : Instr.wf (.csumvf 512) = false := by decide
theorem test_assemble_refuses : assemble (.perm 32 .direct) = none := by decide

/-! ## Decoding: the words of 95_test_vectors.md 2.1 -/

theorem test_decode_nop : decode 0x00000000 = .ok .nop := by decide
theorem test_decode_nop_bit8 : decode 0x00000100 = .error .reservedBits := by decide
theorem test_decode_getbit : decode 0x09001001 = .ok (.getbit 0x10 9) := by decide
theorem test_decode_getbit_val : decode 0x09021001 = .error .reservedBits := by decide
theorem test_decode_getbit_widest : decode 0xFF01FF01 = .ok (.getbit 511 255) := by decide
theorem test_decode_setbit : decode 0x07035702 = .ok (.setbit 343 7 true) := by decide
theorem test_decode_setbit_zero : decode 0x07001002 = .ok (.setbit 0x10 7 false) := by decide
theorem test_decode_pkclr : decode 0x00000003 = .ok .pkclr := by decide
theorem test_decode_pkapp : decode 0x00000504 = .ok (.pkapp 5) := by decide
theorem test_decode_pkapp_bit15 : decode 0x00008004 = .error .reservedBits := by decide
theorem test_decode_unpk : decode 0x00080405 = .ok (.unpk 4 8 .opa) := by decide
theorem test_decode_unpk_acc : decode 0x00054005 = .ok (.unpk 0 5 .acc) := by decide
theorem test_decode_unpk_bit15 : decode 0x00008005 = .error .reservedBits := by decide
theorem test_decode_perm : decode 0x00000310 = .ok (.perm 3 .direct) := by decide
theorem test_decode_perm_inv : decode 0x00002310 = .ok (.perm 3 .inverse) := by decide
theorem test_decode_perm_bit14 : decode 0x00004010 = .error .reservedBits := by decide
theorem test_decode_crypt : decode 0x02900820 = .ok (.crypt 8 328) := by decide
theorem test_decode_crypt_bit26 : decode 0x04000020 = .error .reservedBits := by decide
theorem test_decode_decrypt : decode 0x00000021 = .ok .decrypt := by decide
theorem test_decode_decrypt_bit8 : decode 0x00000121 = .error .reservedBits := by decide
theorem test_decode_encrypt : decode 0x00000022 = .ok .encrypt := by decide
theorem test_decode_decif : decode 0x00000023 = .ok .decif := by decide
theorem test_decode_csum : decode 0x00014830 = .ok (.csum 328) := by decide
theorem test_decode_csumst : decode 0x00034830 = .ok (.csumst 328) := by decide
theorem test_decode_csumvf : decode 0x00054830 = .ok (.csumvf 328) := by decide
theorem test_decode_mode3 : decode 0x00074830 = .error .checksumMode3 := by decide
theorem test_decode_unassigned : [0x00000006, 0x00000011, 0x00000024, 0x00000031, 0xFFFFFFFF].all
    (fun c : Word => decide (decode c = .error .unassignedOp)) = true := by decide
theorem test_decodeTableWord : decodeTableWord 32 0x00034830 = some (.csumst 328) := by decide
theorem test_encode_setbit : encode (.setbit 343 7 true) = 0x07035702 := by decide
theorem test_encode_crypt : encode (.crypt 328 344) = 0x02B14820 := by decide
theorem test_encode_unpk_acc : encode (.unpk 10 5 .acc) = 0x00054A05 := by decide
theorem test_asmText : (Instr.unpk 0 5 .acc).asmText = "UNPK.ACC 0, 5" := by decide

/-! ## Memory -/

theorem test_putCell_sorts : (((zerosAt 5 1).set 3 1).set 4 2).cells = [(3, 1), (4, 2), (5, 0)] := by decide
theorem test_wf_set : ((zerosAt 5 1).set 343 1).wf = true := by decide
theorem test_wf_unsorted : Memory.wf ⟨[(5, 0), (3, 1)], 0⟩ = false := by decide
theorem test_wf_outside : Memory.wf ⟨[(344, 0)], 0⟩ = false := by decide
/-- 20_memory.md R62: the byte at the lowest offset is the least significant. -/
theorem test_memRead_little_endian : (bytesAt 0x48 [0x1f, 0xbc, 0xe0, 0x4f]).memRead 0x48 4 = 0x4FE0BC1F := by decide

/-! ## The commands -/

/-- 95_test_vectors.md 2.8: STATUS = 0, NOP: 0x00000002. -/
theorem test_nop : after (exec .nop State.reset) (fun t => t.status.toWord == 2) = true := by decide

/-- 95_test_vectors.md 2.2: GETBIT 0x10, 255 (masked to 7) of 0xA5. -/
theorem test_getbit_masked : after (exec (.getbit 0x10 255) (st false (bytesAt 0x10 [0xA5]))) (fun t => t.result == 1)
    = true := by decide
/-- 95_test_vectors.md 2.2: GETBIT 328, 0 at FORM = 0. -/
theorem test_getbit_beyond : after (exec (.getbit 328 0) (st false pat)) (fun t => t.status.errContract && t.result == 0)
    = true := by decide

/-- 95_test_vectors.md 2.2: SETBIT 0x10, 9, 1 (masked to 1) on 0xA5. -/
theorem test_setbit_one : after (exec (.setbit 0x10 9 true) (st false (bytesAt 0x10 [0xA5])))
    (fun t => t.buf.cells == [(0x10, 0xA7)]) = true := by decide
/-- 95_test_vectors.md 2.2: SETBIT 0x10, 255, 0 (masked to 7) on 0xA5. -/
theorem test_setbit_zero : after (exec (.setbit 0x10 255 false) (st false (bytesAt 0x10 [0xA5])))
    (fun t => t.buf.cells == [(0x10, 0x25)]) = true := by decide

/-- 40_bitfield.md R113: CLAMP is not cleared. -/
theorem test_pkclr : after (exec .pkclr { packing 5 31 0 with status := { Status.reset with clamp := true } })
    (fun t => t.acc == 0 && t.pos == 0 && t.status.clamp) = true := by decide

/-- 95_test_vectors.md P1 step 23: 50 in 5 bits at POS 5. -/
theorem test_pkapp_clamps : after (exec (.pkapp 5) (packing 5 3 50))
    (fun t => t.acc == 0x3E3 && t.pos == 10 && t.status.clamp) = true := by decide
/-- 95_test_vectors.md 2.8: POS = 32, PKAPP 1 of 0xFFFFFFFF: 0x0000000A. -/
theorem test_pkapp_full : after (exec (.pkapp 1) (packing 32 0 0xFFFFFFFF)) (fun t => t.status.toWord == 0xA) = true := by
  decide

/-- 95_test_vectors.md 2.2: UNPK 1, 31 of 0x8F3A5C21. -/
theorem test_unpk : after (exec (.unpk 1 31 .opa) (packing 0 0 0x8F3A5C21)) (fun t => t.result == 0x479D2E10) = true := by
  decide
/-- 95_test_vectors.md P1 step 17: UNPK.ACC 20, 5. -/
theorem test_unpk_acc : after (exec (.unpk 20 5 .acc) (packing 32 0x4FE0BC1F 0)) (fun t => t.result == 30) = true := by
  decide

/-- A byte after PERM, read through `permute_get_block`. -/
theorem perm_byte (idx : Nat) (sel : RowSel) (m : Memory) (v : Byte) {blk k : Nat} (hb : blk < 4) (hk : k < 80) :
    after (exec (.perm idx sel) (st false m)) (fun t => t.buf.get (8 + 80 * blk + k) == v)
      = (m.get (8 + 80 * Config.defaultTables.row (permRow Config.defaultTables idx sel) blk + k) == v) := by
  rw [← permute_get_block Config.defaultTables _ m hb hk]
  rfl

/-- 95_test_vectors.md 2.3: the first byte of sub-block 1 after PERM 17 of `pat`. -/
theorem test_perm : after (exec (.perm 17 .direct) (st false pat)) (fun t => t.buf.get (8 + 80 * 1 + 0) == 168) = true :=
  (perm_byte 17 .direct pat 168 (by decide) (by decide)).trans (by decide +kernel)
/-- 95_test_vectors.md 2.3: the first byte of sub-block 3 after PERM.INV 9 of `pat`. -/
theorem test_perm_inv : after (exec (.perm 9 .inverse) (st false pat)) (fun t => t.buf.get (8 + 80 * 3 + 0) == 8) = true :=
  (perm_byte 9 .inverse pat 8 (by decide) (by decide)).trans (by decide +kernel)

/-- 95_test_vectors.md 2.4: CRYPT 9, 17 with SEED 0. -/
theorem test_crypt_odd_start : after (exec (.crypt 9 17) (st false (zerosAt 9 8)))
    (fun t => t.buf == bytesAt 9 [0, 0, 0x7e, 0xe9, 0x71, 0x52, 0xb0, 0x31] && t.lcg == 0x31B0DDE4) = true := by
  decide +kernel
/-- 95_test_vectors.md 2.4: CRYPT 8, 344 at FORM = 0. -/
theorem test_crypt_beyond : after (exec (.crypt 8 344) (st false (zerosAt 8 4)))
    (fun t => t.status.toWord == 0xA && t.buf == zerosAt 8 4) = true := by decide

/-- The start of 95_test_vectors.md 2.6 with seed 0xAC731A09, with the bytes that the tests look at listed. -/
def sample : Memory := ⟨cellsFrom 0 [0x09, 0x1a, 0x73, 0xac] ++ [(328, 0), (343, 0)], 0⟩

theorem after_encrypt (s : State) (p : Word → Memory → Bool) :
    after (exec .encrypt s) (fun t => p t.lcg t.buf) =
      p (cryptPkm s.len s.buf.seed (permute s.rom (s.rom.invRow (shuffleIndex s.buf.seed)) s.buf)).2
        (cryptPkm s.len s.buf.seed (permute s.rom (s.rom.invRow (shuffleIndex s.buf.seed)) s.buf)).1 := rfl

theorem after_decrypt (s : State) (p : Word → Memory → Bool) :
    after (exec .decrypt s) (fun t => p t.lcg t.buf) =
      p (cryptPkm s.len s.buf.seed s.buf).2
        (permute s.rom (shuffleIndex s.buf.seed) (cryptPkm s.len s.buf.seed s.buf).1) := rfl

/-- 95_test_vectors.md 2.6: ENCRYPT at FORM = 1; the party range restarts from the seed. -/
theorem test_encrypt_party : after (exec .encrypt (st true sample))
    (fun t => t.lcg == 0xA724E831 && t.buf.get 328 == 0xe7 && t.buf.get 343 == 0xa7) = true := by
  refine (after_encrypt _ fun l b => l == 0xA724E831 && b.get 328 == 0xe7 && b.get 343 == 0xa7).trans ?_
  rw [cryptPkm_get (len_cases _), cryptPkm_get (len_cases _), permute_get_outside _ _ _ (by decide),
    permute_get_outside _ _ _ (by decide)]
  decide +kernel
/-- 95_test_vectors.md 2.6: the LCG of ENCRYPT at FORM = 0. -/
theorem test_encrypt_stored_lcg : after (exec .encrypt (st false sample)) (fun t => t.lcg == 0xCF843B29) = true := by
  decide +kernel

/-- The first bytes of the four sub-blocks of image E of 95_test_vectors.md P2, and its seed. -/
def imageE : Memory :=
  ⟨cellsFrom 0 [0x00, 0x60, 0x34, 0x12] ++ [(8, 0x85), (88, 0xfd), (168, 0xdb), (248, 0x72), (328, 0xc5)], 0⟩

/-- 95_test_vectors.md P2 step 4: the plain image holds 88 at offset 88, 0 at 168 and 328 modulo 256 at 328; the row is the
seed's own index 3. -/
theorem test_decrypt : after (exec .decrypt (st true imageE)) (fun t => t.lcg == 0x403C1608 &&
    t.buf.get (8 + 80 * 1 + 0) == 88 && t.buf.get (8 + 80 * 2 + 0) == 0 && t.buf.get 328 == 72) = true := by
  refine (after_decrypt _ fun l b => l == 0x403C1608 && b.get (8 + 80 * 1 + 0) == 88 && b.get (8 + 80 * 2 + 0) == 0 &&
    b.get 328 == 72).trans ?_
  rw [permute_get_block _ _ _ (by decide) (by decide), permute_get_block _ _ _ (by decide) (by decide),
    permute_get_outside _ _ _ (by decide), cryptPkm_get (len_cases _), cryptPkm_get (len_cases _),
    cryptPkm_get (len_cases _)]
  decide +kernel
/-- 95_test_vectors.md P2, the stored-form variant: the LCG, and the party bytes are not written. -/
theorem test_decrypt_stored : after (exec .decrypt (st false imageE))
    (fun t => t.lcg == 0x72B466A0 && t.buf.get 328 == 0xc5) = true := by
  refine (after_decrypt _ fun l b => l == 0x72B466A0 && b.get 328 == 0xc5).trans ?_
  rw [permute_get_outside _ _ _ (by decide), cryptPkm_get (len_cases _)]
  decide +kernel

/-- Bytes 168 to 247 all `b`, and a seed. -/
def guarded (b : Byte) : Memory := ⟨cellsFrom 0 [0, 0x60, 0x34, 0x12] ++ cellsFrom 168 (List.replicate 80 b), 0⟩

theorem guard_words_zero : ∀ k : Fin 40, (guarded 0).memRead (168 + 2 * k.val) 2 = 0 := by decide +kernel
theorem guard_words_nonzero : ∀ k : Fin 40, (guarded 1).memRead (168 + 2 * k.val) 2 = 0x101 := by decide +kernel

/-- 95_test_vectors.md P2 step 5: zero guard words, for every admissible pair of offsets. -/
theorem test_decif_plain : exec .decif { st true (guarded 0) with status := { Status.reset with decrypted := true } }
    = .next { st true (guarded 0) with status := { Status.reset with done := true } } := by
  have h : guardsNonzero (guarded 0) = false := by
    unfold guardsNonzero Config.guardOfsA
    rw [guard_words_zero]
    rfl
  simp only [exec, execDecif]
  rw [if_neg (by rw [show State.buf _ = guarded 0 from rfl, h]; exact Bool.false_ne_true)]
  rfl
/-- 95_test_vectors.md P2 step 4: nonzero guard words, DECRYPTED = 1, and the LCG of the seed 0x12346000 at FORM = 1. -/
theorem test_decif_encrypted : after (exec .decif (st true (guarded 1)))
    (fun t => t.status.toWord == 0x82 && t.lcg == 0x403C1608) = true := by
  have h : guardsNonzero (guarded 1) = true := by
    unfold guardsNonzero Config.guardOfsA Config.guardOfsB
    rw [guard_words_nonzero, guard_words_nonzero]
    rfl
  have e : exec .decif (st true (guarded 1))
      = .next ((st true (guarded 1)).decryptArray.setDecrypted true).complete := by
    simp only [exec, execDecif]
    rw [if_pos (show guardsNonzero (st true (guarded 1)).buf = true from h)]
  rw [e]
  decide +kernel

/-- 95_test_vectors.md 2.7: CSUM 328 of `pat`. -/
theorem test_csum : after (exec (.csum 328) (st false pat)) (fun t => t.csum == 0x4460) = true := by decide +kernel
/-- 95_test_vectors.md 2.7: CSUM 8 sums no words. -/
theorem test_csum_empty : after (exec (.csum 8) (st false pat)) (fun t => t.csum == 0 && !t.status.errContract) = true := by
  decide

/-- 95_test_vectors.md 2.7: one word at 8, stored little-endian at 6 and 7. -/
theorem test_csumst : after (exec (.csumst 10) (st false (bytesAt 5 [5, 6, 7, 8, 9])))
    (fun t => t.csum == 0x0908 && t.buf == bytesAt 5 [5, 8, 9, 8, 9]) = true := by decide
/-- 95_test_vectors.md 2.7: an odd END. -/
theorem test_csumst_odd : after (exec (.csumst 329) (st true pat)) (fun t => t.status.toWord == 0xA) = true := by decide

/-- 43_checksum.md R163: a mismatch is no error. -/
theorem test_csumvf_mismatch : after (exec (.csumvf 10) (st false (bytesAt 6 [0x08, 0x08, 8, 9])))
    (fun t => t.status.toWord == 0x42) = true := by decide
/-- 43_checksum.md R163: MISMATCH is written with 0 when the sums agree. -/
theorem test_csumvf_match : after (exec (.csumvf 10)
    { st false (bytesAt 6 [0x08, 0x09, 8, 9]) with status := { Status.reset with mismatch := true } })
    (fun t => t.status.toWord == 2) = true := by decide

/-! ## The port and the step -/

/-- 95_test_vectors.md 2.8: WR STATUS, 0xFFFFFFFF at 0x000000C2 leaves 0x000000C0. -/
theorem test_status_w1c : (State.perform { State.reset with
      status := { Status.reset with done := true, mismatch := true, decrypted := true } }
    (writeWord 0x008 0xFFFFFFFF)).1.status.toWord = 0xC0 := by decide
/-- 95_test_vectors.md 2.8: WR OPA, 5 while BUSY = 1. -/
theorem test_busy_write : (State.perform (flying 0 0 []) (writeWord 0x010 5)).1.status.toWord = 0x11 := by decide
/-- 20_memory.md R66: 0x558 is unmapped. -/
theorem test_unmapped : (State.perform State.reset (.write 0x558 .byte 1)) = (State.reset, ⟨.error, 0⟩) := by decide
/-- 20_memory.md R63: bits 15:8 travel to the second byte. -/
theorem test_window_half : (State.perform State.reset (.write 0x400 .half 0xAABBCCDD)).1.buf = bytesAt 0 [0xDD, 0xCC] := by
  decide
/-- 95_test_vectors.md P4 step 1: the word 0x00074830 ends with STATUS = 0x00000006. -/
theorem test_illegal_word : after (step (State.reset.withFetchWord 32 0x00074830))
    (fun t => t.status.toWord == 6 && t.lcg == 0) = true := by decide
/-- A word placed by `withFetchWord` runs in the very next step (95_test_vectors.md P1 step 1). -/
theorem test_fetch_runs : after (step ((packing 5 31 0).withFetchWord 32 0x00000003)) (fun t => t.acc == 0 && !t.status.busy)
    = true := by decide
/-- 30_encoding.md R100: PACK is PKCLR, then WR OPA and PKAPP for each element. -/
theorem test_pack_expands : (Pseudo.pack [(31, 5)]).expand = [.event (wrEvent .cmd 0x00000003), .poll,
    .event (wrEvent .opa 31), .event (wrEvent .cmd 0x00000504), .poll] := by decide
/-- A host program's run is over, with the property `p` of its last state. -/
def afterRun (o : Host.Outcome HostRun Fault Refusal) (p : State → Bool) : Bool :=
  match o with
  | .next (.over t) => p t
  | .next (.unfinished _) => false
  | .fault _ => false
  | .refused _ => false

/-- A host program's run stops before its end, with the property `p` of the state it has reached. -/
def afterPart (o : Host.Outcome HostRun Fault Refusal) (p : State → Bool) : Bool :=
  match o with
  | .next (.unfinished t) => p t
  | .next (.over _) => false
  | .fault _ => false
  | .refused _ => false

/-- 70_reset_and_hazards.md R206: a program that issues no command reads and writes, and has no end. -/
theorem test_host_program : afterPart (runMoves [0, 2] [.event (wrEvent .opa 7), .event (rdEvent .opa)] State.reset)
    (fun t => t.opa == 7 && t.replies == [⟨.ok, 7⟩, ⟨.ok, 0⟩]) = true := by decide
/-- 95_test_vectors.md P4 step 8 with the NOP in its last cycle: without a pause the OPA write is discarded, STATUS =
0x00000012; after a pause of one cycle it is not, STATUS = 0x00000002. The run ends when WAIT reads BUSY = 0. -/
theorem test_busy_hazard :
    afterRun (runFrom true [0, 0] [.event (wrEvent .opa 5), .poll] (flying 0 0 []))
      (fun t => t.observe.opa == 0 && t.observe.status == 0x12) = true ∧
    afterRun (runFrom true [1, 0] [.event (wrEvent .opa 5), .poll] (flying 0 0 []))
      (fun t => t.observe.opa == 5 && t.observe.status == 2 && t.observe.id == 0x504B3801) = true := by decide
/-- 70_reset_and_hazards.md R206: a run whose gaps end, whose last STATUS read has BUSY = 1, or whose next command is not
issued yet, is not over and has no observation. -/
theorem test_run_not_over :
    afterPart (runFrom true [] [.poll] (flying 0 0 [])) (fun t => t.status.busy) = true ∧
    afterPart (runFrom true [0] [.event (rdEvent .status)] (flying 0 1 [])) (fun t => t.status.busy) = true ∧
    afterPart (runFrom true [1] [.poll, .event (wrEvent .cmd 0)] (flying 0 0 [])) (fun t => !t.status.busy) = true ∧
    (HostRun.unfinished State.reset).observation = none := by decide

/-- The bytes from `a` on read back as they were listed. -/
theorem get_bytesAt (bs : List Byte) (a i : Nat) (h : i < bs.length) : (bytesAt a bs).get (a + i) = bs[i] := by
  have hc : ∀ (bs : List Byte) (a i : Nat), cellAt (a + i) (cellsFrom a bs) = bs[i]? := by
    intro bs
    induction bs with
    | nil => exact fun _ _ => rfl
    | cons b rest ih =>
      intro a i
      cases i with
      | zero => simp [cellsFrom, cellAt]
      | succ i =>
        rw [cellsFrom, cellAt, if_neg (by omega), show a + (i + 1) = a + 1 + i by omega, ih]
        rfl
  simp [bytesAt, Memory.get, hc, h]

/-- 70_reset_and_hazards.md R193: a block that is idle, without errors and without DONE, at the stated FORM and with any
stated bytes, is clean, and safe. -/
theorem test_clean (form : Bool) (bytes : List Byte) (h : bytes.length = if form then 344 else 328) :
    (st form (bytesAt 0 bytes)).clean form bytes = true ∧ (st form (bytesAt 0 bytes)).safe = true := by
  have hb : (List.range bytes.length).map (bytesAt 0 bytes).get = bytes := by
    refine List.ext_getElem (by simp) fun i h1 h2 => ?_
    have hg := get_bytesAt bytes 0 i h2
    rw [Nat.zero_add] at hg
    simpa using hg
  have hl : (st form (bytesAt 0 bytes)).len = bytes.length := by
    rw [h]
    rfl
  refine ⟨?_, rfl⟩
  unfold State.clean
  rw [hl]
  simp [st, State.reset, State.noErr, Status.reset, hb]
/-- 70_reset_and_hazards.md R193: another FORM, another byte, or DONE, is not clean. -/
theorem test_not_clean (bytes : List Byte) :
    State.reset.clean true bytes = false ∧ (st false (zerosAt 0 1)).clean false (1 :: bytes) = false ∧
    State.clean { State.reset with status := { Status.reset with done := true } } false bytes = false := by
  refine ⟨rfl, ?_, rfl⟩
  have hb : (List.range (st false (zerosAt 0 1)).len).map (st false (zerosAt 0 1)).buf.get ≠ 1 :: bytes := fun h =>
    absurd (congrArg List.head? h) (by rw [List.head?_cons]; decide)
  rw [State.clean, decide_eq_false hb, Bool.and_false]

/-! ## Witnesses: for every statement with hypotheses, states and operands that meet all of them, at the boundaries of the
clauses -/

/-- DecodeOfEncodeIsTheCommand, one command of each operand shape at its greatest operands. -/
theorem witness_DecodeOfEncodeIsTheCommand : [Instr.nop, .getbit 511 255, .setbit 511 255 true, .pkclr, .pkapp 63,
    .unpk 63 63 .acc, .perm 31 .inverse, .crypt 511 511, .decrypt, .encrypt, .decif, .csum 511, .csumst 511,
    .csumvf 511].all Instr.wf = true := by decide

theorem witness_EncodeOfDecodeIsTheWord : decode 0xFF03FF02 = .ok (.setbit 511 255 true) := by decide

/-- The legal word 0x00052305 (UNPK 35, 5) matches the row of UNPK, and NOP's row does not match it. -/
theorem witness_WordIsTheCommandOfItsRow : (0x00052305 : Word) &&& 0xFFC080FF = 0x00000005 ∧
    (0x00052305 : Word) &&& 0xFFFFFFFF ≠ 0 ∧ ∃ r ∈ opcodeMap, r.mask = 0xFFC080FF ∧ r.value = 5 := by decide

/-- Each of the three grounds: an unassigned OP, MODE = 3, a reserved bit. -/
theorem witness_IllegalWordRecordsErrIllegalOnly :
    Illegal (flying 0x00000006 0 []).cmdl ∧ Illegal (flying 0x00074830 0 []).cmdl ∧ Illegal (flying 0x00000100 0 []).cmdl ∧
    (flying 0x00000006 0 []).status.busy = true ∧ (flying 0x00000006 0 []).wait = 0 ∧ (flying 0x00000006 0 []).inbox = [] := by
  unfold Illegal
  decide

/-- The three clauses about the inbox, and the clause about `withFetchWord`. -/
theorem witness_StepRunsTheDecodedCommand :
    (flying 3 0 []).status.busy = true ∧ (flying 3 0 []).wait = 0 ∧ decode (flying 3 0 []).cmdl = .ok .pkclr ∧
    (flying 3 0 []).inbox = [] ∧ (flying 3 0 [.idle]).inbox = [.idle] ∧
    (flying 3 0 [.transact (readWord 8)]).inbox = [.transact (readWord 8)] ∧
    decodeTableWord 32 3 = some .pkclr := by decide

theorem witness_AcceptedCommandEnds : (flying 3 1 [.idle, .transact (readWord 8)]).status.busy = true ∧
    ∀ e ∈ (flying 3 1 [.idle, .transact (readWord 8)]).inbox.take 2, e ≠ .reset ∧ e ≠ .overlap := by decide

theorem witness_CommandReadsTheAcceptedState : (flying 3 1 [.transact (writeWord 0x010 5)]).status.busy = true ∧
    (flying 3 1 [.transact (writeWord 0x010 5)]).wait ≠ 0 ∧
    (flying 3 1 [.transact (writeWord 0x010 5)]).inbox.head? ≠ some .reset ∧
    after (step (flying 3 1 [.transact (writeWord 0x010 5)])) (fun t => t.opa == 0 && t.status.errBusy) = true ∧
    (flying 4 0 [.transact (writeWord 0x010 5)]).status.busy = true ∧ (flying 4 0 [.transact (writeWord 0x010 5)]).wait = 0 ∧
    (flying 4 0 [.transact (writeWord 0x010 5)]).inbox = .transact (writeWord 0x010 5) :: [] := by decide

theorem witness_IdleBlockKeepsItsState : State.reset.status.busy = false ∧ State.reset.inbox = [] ∧
    State.inbox { State.reset with inbox := [.idle, .reset] } = .idle :: [.reset] := by decide

theorem witness_OnlyHostOverlapStops : State.inbox { State.reset with inbox := [.overlap] } ≠ [] ∧
    (State.inbox { State.reset with inbox := [.overlap] }).head? = some .overlap ∧
    State.reset.inbox.head? ≠ some .overlap := by decide

/-- The reset event comes while a command is in flight. -/
theorem witness_ResetLeavesTheResetValues : (flying 3 5 [.reset, .idle]).inbox = .reset :: [.idle] ∧
    after (step (flying 3 5 [.reset, .idle])) (fun t => t.status == Status.reset && t.buf.epoch == 1 && t.rom == State.reset.rom) = true := by decide +kernel

set_option maxRecDepth 10000 in
/-- A step that runs PKAPP from a state that meets the invariant. -/
theorem witness_StepKeepsTheInvariant :
    State.Inv ((packing 5 31 50).withFetchWord 32 0x00000504) ∧
    after (step ((packing 5 31 50).withFetchWord 32 0x00000504)) (fun t => t.pos == 10) = true := by decide

/-- A halfword at a register, a word at 0x402, a byte at 0x558; and the last byte and word of the window. -/
theorem witness_BadAccessGetsErrorAndChangesNothing :
    BadAccess 0x010 2 ∧ BadAccess 0x012 4 ∧ BadAccess 0x402 4 ∧ BadAccess 0x558 1 ∧ BadAccess 0xFFF 1 ∧
    ¬BadAccess 0x3FC 4 ∧ ¬BadAccess 0x557 1 ∧ ¬BadAccess 0x554 4 := by norm_num [BadAccess]

theorem witness_WindowIsLittleEndian : State.reset.status.busy = false ∧ 343 < 344 ∧ 343 % Size.byte.bytes = 0 ∧
    340 < 344 ∧ 340 % Size.word.bytes = 0 ∧ 342 % Size.half.bytes = 0 := by decide

theorem witness_BusyWriteIsDiscarded : (flying 3 1 []).status.busy = true ∧ GuardedWrite 0x004 4 ∧ GuardedWrite 0x00C 4 ∧
    GuardedWrite 0x010 4 ∧ GuardedWrite 0x014 4 ∧ GuardedWrite 0x400 4 ∧ GuardedWrite 0x557 1 := by
  norm_num [GuardedWrite, BadAccess]
  decide

theorem witness_ReadsHaveNoSideEffect : (flying 3 1 []).status.busy = true := by decide

theorem witness_IdleReadsGiveTheResults : State.reset.status.busy = false := by decide

/-- The first and the last reserved word, a misaligned access and a byte at a reserved word. -/
theorem witness_ReadOnlyAndReservedWordsIgnoreWrites :
    0x02C ≤ (0x02C : BitVec 12).toNat ∧ (0x3FC : BitVec 12).toNat ≤ 0x3FF ∧ (0x3FC : BitVec 12).toNat % 4 = 0 ∧
    (0x3FF : BitVec 12).toNat ≤ 0x3FF ∧ (0x3FF : BitVec 12).toNat % 4 ≠ 0 ∧ Size.byte ≠ .word := by decide

/-- In one cycle: STATUS written with all ones and an illegal word, a broken contract or a clamping PKAPP that ends. -/
theorem witness_StatusWriteClearsAndSetWins :
    (flying 6 0 [.transact (writeWord 8 0x3E)]).inbox = .transact (writeWord 8 0x3E) :: [] ∧
    (flying 6 0 [.transact (writeWord 8 0x3E)]).status.busy = true ∧ (flying 6 0 []).wait = 0 ∧ Illegal 6 ∧
    decode 0x00000004 = .ok (.pkapp 0) ∧ Violates (flying 4 0 []) (.pkapp 0) ∧
    decode 0x00000504 = .ok (.pkapp 5) ∧ ¬Violates (packing 27 0 32) (.pkapp 5) ∧ 2 ^ 5 - 1 < (packing 27 0 32).opa.toNat := by
  unfold Illegal Violates
  decide

theorem witness_SameCycleEventsAreBothRecorded : (flying 3 0 [.transact (.write 0x400 .byte 1)]).status.busy = true ∧
    (flying 3 0 [.transact (.write 0x400 .byte 1)]).wait = 0 ∧ GuardedWrite (0x400 : BitVec 12).toNat Size.byte.bytes ∧
    (flying 3 0 [.transact (.write 0x400 .byte 1)]).inbox = .transact (.write 0x400 .byte 1) :: [] ∧
    Illegal (flying 6 0 [.transact (.write 0x400 .byte 1)]).cmdl ∧
    decode (flying 4 0 [.transact (.write 0x400 .byte 1)]).cmdl = .ok (.pkapp 0) ∧ Violates (flying 4 0 []) (.pkapp 0) := by
  unfold GuardedWrite BadAccess Illegal Violates
  decide

theorem witness_CmdWriteLatchesTheCommand : State.reset.status.busy = false ∧ (flying 3 1 []).status.busy = true ∧
    State.inbox { State.reset with inbox := [.transact (writeWord 0x00C 3)] } = .transact (writeWord 0x00C 3) :: [] := by
  decide

theorem witness_OperandRegistersTakeTheWrite : State.reset.status.busy = false := by decide

/-- Each contract at its boundary: LEN, 32, an empty and an odd range, an END of 7, 329 and LEN + 2. -/
theorem witness_ContractErrorIsTheOnlyEffect :
    Violates State.reset (.getbit 328 0) ∧ Violates (st true pat) (.getbit 344 0) ∧ Violates State.reset (.setbit 328 0 true) ∧
    Violates State.reset (.pkapp 0) ∧ Violates State.reset (.pkapp 33) ∧ Violates (packing 32 0 0) (.pkapp 1) ∧
    Violates State.reset (.unpk 0 0 .opa) ∧ Violates State.reset (.unpk 32 1 .acc) ∧ Violates State.reset (.crypt 8 8) ∧
    Violates State.reset (.crypt 8 9) ∧ Violates State.reset (.crypt 328 330) ∧ Violates State.reset (.csum 7) ∧
    Violates State.reset (.csumst 329) ∧ Violates State.reset (.csumvf 330) := by unfold Violates; decide

/-- An illegal word, a command that sets ERR_CONTRACT, and one that breaks its contract where ERR_CONTRACT and CLAMP are set
already. -/
theorem witness_OneErrorAtMost : Illegal (flying 0x00074830 0 []).cmdl ∧
    after (runCommand (flying 0x00000004 0 [])) (fun t => t.status.errContract && !t.status.errIllegal) = true ∧
    decode (flying 0x00000004 0 []).cmdl = .ok (.pkapp 0) ∧ Violates (flying 0x00000004 0 []) (.pkapp 0) ∧
    after (runCommand { flying 0x00000004 0 [] with
        status := { Status.reset with busy := true, errContract := true, clamp := true } })
      (fun t => t.status.toWord == 0x2A) = true := by
  unfold Illegal Violates
  decide

/-- All five bits set, and the host writes 1 to none of them. -/
def stuck : State :=
  { State.reset with
    status := { Status.reset with
      done := true, errIllegal := true, errContract := true, errBusy := true, clamp := true }
    inbox := [.transact (writeWord 0x008 0xC1)] }

theorem witness_StickyBitsStaySet : after (step stuck) (fun t => t.status.toWord == 0x3E) = true ∧
    stuck.inbox.head? ≠ some .reset ∧ stuck.status.done = true ∧ stuck.status.errIllegal = true ∧
    stuck.status.errContract = true ∧ stuck.status.errBusy = true ∧ stuck.status.clamp = true ∧
    ∀ j < 6, 0 < j → (statusWritten stuck.inbox.head?).getLsbD j = false := by decide

/-- The buffer of the state and one that differs at 328 only. -/
theorem witness_StoredFormHidesThePartyBytes : (st false (zerosAt 328 1)).ctrl.form = false ∧
    (∀ x < 328, (bytesAt 328 [1]).get x = (zerosAt 328 1).get x) ∧ (bytesAt 328 [1]).get 328 ≠ (zerosAt 328 1).get 328 := by
  have h : ∀ (l : List Byte) (x a : Nat), x < a → cellAt x (cellsFrom a l) = none := by
    intro l x
    induction l with
    | nil => exact fun _ _ => rfl
    | cons b rest ih =>
      intro a hx
      rw [cellsFrom, cellAt, if_neg (by omega)]
      exact ih _ (by omega)
  refine ⟨rfl, fun x hx => ?_, by decide⟩
  have h1 := h [1] x 328 hx
  have h2 := h (List.replicate 1 0) x 328 hx
  simp only [Memory.get, bytesAt, zerosAt, h1, h2]

/-- Words of the rows, with every operand bit 1 (30_encoding.md R92). -/
theorem witness_Encoded : (0xFF01FF01 : Word) &&& 0x00FE00FF = 1 ∧ (0xFF03FF02 : Word) &&& 0x00FC00FF = 2 ∧
    (0x00003F04 : Word) &&& 0xFFFFC0FF = 4 ∧ (0x003F7F05 : Word) &&& 0xFFC080FF = 5 ∧
    (0x00003F10 : Word) &&& 0xFFFFC0FF = 0x10 ∧ (0x03FFFF20 : Word) &&& 0xFC0000FF = 0x20 ∧
    (0x0001FF30 : Word) &&& 0xFFFE00FF = 0x30 ∧ (0x0003FF30 : Word) &&& 0xFFFE00FF = 0x20030 ∧
    (0x0005FF30 : Word) &&& 0xFFFE00FF = 0x40030 ∧ (0x21 : Word) &&& 0xFFFFFFFF = 0x21 := by decide

/-- GETBIT and SETBIT at 327 and 328 (FORM = 0), 343 and 344 (FORM = 1). -/
theorem witness_GetbitReadsOneBit_SetbitWritesOneBit : 327 < (st false pat).len ∧ (st false pat).len ≤ 328 ∧
    343 < (st true pat).len ∧ (st true pat).len ≤ 344 := by decide

/-- The widest field at POS 0, the last bit, and one beyond it. -/
theorem witness_PkappAppendsSaturated : (packing 0 0 0).pos.toNat + 32 ≤ 32 ∧ (packing 31 0 0).pos.toNat + 1 ≤ 32 ∧
    32 < (packing 32 0 0).pos.toNat + 1 ∧ (1 : Nat) ≠ 0 := by decide

theorem witness_UnpkExtractsTheField : 0 + 32 ≤ 32 ∧ 31 + 1 ≤ 32 ∧ 32 < 32 + 1 ∧ (32 : Nat) ≠ 0 := by decide

set_option maxRecDepth 10000 in
theorem witness_ClampingKeepsTheNeighbours : State.Inv (packing 27 0x7FFFFFF 50) ∧ (5 : Nat) ≠ 0 ∧
    (packing 27 0x7FFFFFF 50).pos.toNat + 5 ≤ 32 := by decide

/-- 95_test_vectors.md P1: six 5-bit values and two flags, 32 bits in all; one more bit does not fit. -/
theorem witness_PackSequenceComputesPack :
    (∀ e ∈ [((31 : Word), 5), (0, 5), (15, 5), (1, 5), (30, 5), (7, 5), (1, 1), (0, 1)], 1 ≤ e.2) ∧
    totalWidth [((31 : Word), 5), (0, 5), (15, 5), (1, 5), (30, 5), (7, 5), (1, 1), (0, 1)] = 32 ∧ 32 < 32 + 1 ∧
    packOr 0 [((31 : Word), 5), (0, 5), (15, 5), (1, 5), (30, 5), (7, 5), (1, 1), (0, 1)] = 0x4FE0BC1F := by decide

theorem witness_PackUnpackRoundTrip : (∀ e ∈ [((3 : Word), 5)] ++ (50, 5) :: [(9, 22)], 1 ≤ e.2) ∧
    totalWidth ([((3 : Word), 5)] ++ (50, 5) :: [(9, 22)]) ≤ 32 := by decide

/-- A pair of tables other than the default that meets the constraints: rows 7 and 31 are 1,2,3,0, row 8 is its inverse
3,0,1,2, and every other row is the identity. -/
def otherTables : Config.Tables where
  fwd := (List.replicate 7 [0, 1, 2, 3]).flatten ++ [1, 2, 3, 0] ++ [3, 0, 1, 2] ++
    (List.replicate 15 [0, 1, 2, 3]).flatten ++ (List.replicate 7 [0, 1, 2, 3]).flatten ++ [1, 2, 3, 0]
  inv := [0, 0, 0, 0, 0, 0, 0, 8] ++ [7] ++ List.replicate 15 0 ++ [0, 0, 0, 0, 0, 0, 0, 8]

set_option maxRecDepth 10000 in
/-- The ROM at reset and another ROM meet the constraints, for every statement that has them as its premise. -/
theorem witness_AdmissibleTablesGiveInversePermutations : State.reset.rom.admissible = true ∧
    otherTables.admissible = true ∧ otherTables ≠ Config.defaultTables ∧ (31 : Nat) < 32 := by decide

theorem witness_PermAndPermInvUndoEachOther : (st false pat).rom.admissible = true ∧ (31 : Nat) < 32 :=
  ⟨witness_AdmissibleTablesGiveInversePermutations.1, by decide⟩

theorem witness_DuplicateRowsActAlike : (st false pat).rom.admissible = true ∧ (24 : Nat) ≤ 24 ∧ 24 < 32 ∧ 24 ≤ 31 ∧
    (31 : Nat) < 32 := ⟨witness_AdmissibleTablesGiveInversePermutations.1, by decide⟩

/-- 00_scope.md R7: a block with another ROM permutes by it: PERM 7 puts source sub-block 1 first. -/
theorem test_perm_other_rom :
    after (exec (.perm 7 .direct) { st false pat with rom := otherTables }) (fun t => t.buf.get (8 + 80 * 0 + 0) == 88) = true := by
  refine Eq.trans ?_ (show (pat.get (8 + 80 * otherTables.row 7 0 + 0) == 88) = true by decide +kernel)
  rw [← permute_get_block otherTables 7 pat (by decide) (by decide)]
  rfl

/-- The whole party form, an odd start, and the three ways to break the contract. -/
theorem witness_CryptXorsTheKeystream : 0 < 344 ∧ 344 ≤ (st true pat).len ∧ (344 - 0) % 2 = 0 ∧ 9 < 11 ∧
    11 ≤ (st false pat).len ∧ (11 - 9) % 2 = 0 ∧ 8 ≤ 8 ∧ (st false pat).len < 330 ∧ (9 - 8) % 2 = 1 := by decide

/-- The second state is the first one's outcome with the other FORM and IRQ_EN. -/
theorem witness_CryptTwiceRestores : ∃ t u, exec (.crypt 8 10) (st false (zerosAt 8 2)) = .next t ∧
    u = { t with ctrl := ⟨true, true⟩ } ∧ 8 < 10 ∧ 10 ≤ (st false (zerosAt 8 2)).len ∧ (10 - 8) % 2 = 0 ∧
    u.seed = (st false (zerosAt 8 2)).seed ∧ 10 ≤ u.len ∧ ∀ x, 8 ≤ x → x < 10 → u.buf.get x = t.buf.get x :=
  ⟨_, _, rfl, rfl, by decide, by decide, by decide, rfl, by decide, fun _ _ _ => rfl⟩

theorem witness_DecryptUndoesEncrypt_EncryptUndoesDecrypt : (st true pat).rom.admissible = true ∧
    (State.rom { st true pat with rom := otherTables }).admissible = true :=
  ⟨witness_AdmissibleTablesGiveInversePermutations.1, witness_AdmissibleTablesGiveInversePermutations.2.1⟩

/-- Guard words that are nonzero, and guard words that are 0, whichever the two offsets are. -/
theorem witness_DecifDecryptsWhenBothGuardsAreNonzero :
    (u16 (guarded 1) Config.guardOfsA ≠ 0 ∧ u16 (guarded 1) Config.guardOfsB ≠ 0) ∧
    u16 (guarded 0) Config.guardOfsA = 0 := by
  have h1 : ∀ k : Fin 40, u16 (guarded 1) (168 + 2 * k.val) = 0x101 := by decide +kernel
  have h0 : ∀ k : Fin 40, u16 (guarded 0) (168 + 2 * k.val) = 0 := by decide +kernel
  unfold Config.guardOfsA Config.guardOfsB
  rw [h1, h1, h0]
  decide

/-- The first DECIF changes nothing, and its guard words are 0. -/
theorem witness_DecifTwiceIsStableWhenAGuardIsZero : ∃ t, exec .decif
    { st true (guarded 0) with status := { Status.reset with decrypted := true } } = .next t ∧
    u16 t.buf Config.guardOfsA = 0 :=
  ⟨_, test_decif_plain, witness_DecifDecryptsWhenBothGuardsAreNonzero.2⟩

theorem witness_ContainerCommandsKeepTheHeader : Instr.mnemonic (.perm 31 .inverse) ∈ ["DECRYPT", "ENCRYPT", "DECIF", "PERM"] ∧
    Instr.mnemonic .decif ∈ ["DECRYPT", "ENCRYPT", "DECIF", "PERM"] := by decide

theorem witness_StoredBytesDoNotDependOnForm : (st true pat).rom.admissible = true ∧ (st true pat).ctrl.form = true ∧
    (st false pat).ctrl.form = false ∧ 328 ≤ 343 ∧ 343 < 344 :=
  ⟨witness_AdmissibleTablesGiveInversePermutations.1, by decide⟩

/-- CSUM, CSUMST and CSUMVF at END = 8, at LEN of either FORM, and the three ways to break the contract. -/
theorem witness_CsumAddsTheWords : 8 ≤ 8 ∧ 8 ≤ (st false pat).len ∧ 328 ≤ (st false pat).len ∧ 344 ≤ (st true pat).len ∧
    344 % 2 = 0 ∧ 7 < 8 ∧ (st false pat).len < 330 ∧ 329 % 2 = 1 := by decide

/-- The second state is the first one's outcome. -/
theorem witness_ChecksumStoreConverges : ∃ t, exec (.csumst 328) (st false (zerosAt 8 2)) = .next t ∧
    ∀ x, 8 ≤ x → x < 328 → t.buf.get x = t.buf.get x := ⟨_, rfl, fun _ _ _ => rfl⟩

/-- Two buffers of 4 bytes that differ at 9 only. -/
theorem witness_ChecksumSeesEverySingleByte : 12 % 2 = 0 ∧ 8 ≤ 9 ∧ 9 < 12 ∧
    (bytesAt 8 [0, 1, 0, 0]).get 9 ≠ (zerosAt 8 4).get 9 ∧
    ∀ y < 12, 8 ≤ y → y ≠ 9 → (bytesAt 8 [0, 1, 0, 0]).get y = (zerosAt 8 4).get y := by decide

theorem witness_PermKeepsTheChecksum : (st false pat).rom.admissible = true ∧ (31 : Nat) < 32 :=
  ⟨witness_AdmissibleTablesGiveInversePermutations.1, by decide⟩

end Sys2Proof.Tests
end

/-! PROOFS, 10_state.md. What a command does when its contract holds and when it is broken, and what it leaves unchanged. -/

namespace Sys2Proof.Machine
open Sys2Proof.Claims

/-- What a command writes, apart from DONE and BUSY, when its contract holds (`exec_of_not_violates`). -/
def State.work (s : State) : Instr → State
  | .nop => s
  | .getbit addr bit => { s with result := getBit (s.buf.get addr) (bitIndex bit) }
  | .setbit addr bit val => { s with buf := s.buf.set addr (setBit (s.buf.get addr) (bitIndex bit) val) }
  | .pkclr => { s with acc := 0, pos := 0 }
  | .pkapp w => s.append w
  | .unpk off w src => { s with result := unpackField (s.source src) off w }
  | .perm idx sel => { s with buf := permute s.rom (permRow s.rom idx sel) s.buf }
  | .crypt start stop =>
    { s with lcg := (cryptRange s.seed start stop s.buf).2, buf := (cryptRange s.seed start stop s.buf).1 }
  | .decrypt => s.decryptArray
  | .encrypt => s.encryptArray
  | .decif => if guardsNonzero s.buf then s.decryptArray.setDecrypted true else s.setDecrypted false
  | .csum stop => { s with csum := checksum s.buf stop }
  | .csumst stop =>
    { s with csum := checksum s.buf stop, buf := s.buf.memWrite Config.csumOfs 2 (checksum s.buf stop).toNat }
  | .csumvf stop =>
    { s with
      csum := checksum s.buf stop
      status := { s.status with mismatch := mismatchFlag (checksum s.buf stop) s.buf.storedCsum } }

/-! Each contract check is the negation of its row in 60_exceptions.md R172. -/

theorem addrOk_iff (s : State) (addr : Nat) : s.addrOk addr = true ↔ ¬s.len ≤ addr := by
  simp [State.addrOk]

theorem appendOk_iff_not (s : State) (w : Nat) : s.appendOk w = true ↔ ¬(w = 0 ∨ 32 < s.pos.toNat + w) := by
  rw [appendOk_iff]
  omega

theorem fieldOk_iff_not (off w : Nat) : fieldOk off w = true ↔ ¬(w = 0 ∨ 32 < off + w) := by
  rw [fieldOk_iff]
  omega

theorem rangeOk_iff_not (s : State) (a b : Nat) :
    s.rangeOk a b = true ↔ ¬(b ≤ a ∨ s.len < b ∨ (b - a) % 2 = 1) := by
  rw [rangeOk_iff]
  omega

theorem sumEndOk_iff_not (s : State) (e : Nat) : s.sumEndOk e = true ↔ ¬(e < 8 ∨ s.len < e ∨ e % 2 = 1) := by
  rw [sumEndOk_iff]
  omega

/-- A command whose contract holds does its work and completes (60_exceptions.md R170). -/
theorem exec_of_not_violates {s : State} {i : Instr} (h : ¬Violates s i) : exec i s = .next (s.work i).complete := by
  cases i with
  | nop | pkclr | perm _ _ | decrypt | encrypt | decif => rfl
  | getbit addr _ | setbit addr _ _ => exact if_pos ((addrOk_iff s addr).mpr h)
  | pkapp w => exact if_pos ((appendOk_iff_not s w).mpr h)
  | unpk off w _ => exact if_pos ((fieldOk_iff_not off w).mpr h)
  | crypt start stop => exact if_pos ((rangeOk_iff_not s start stop).mpr h)
  | csum stop | csumst stop | csumvf stop => exact if_pos ((sumEndOk_iff_not s stop).mpr h)

/-- A command whose contract is broken only raises ContractError (60_exceptions.md R172). -/
theorem exec_of_violates {s : State} {i : Instr} (h : Violates s i) : exec i s = .next (s.raise .contractError) := by
  cases i with
  | nop | pkclr | perm _ _ | decrypt | encrypt | decif => exact h.elim
  | getbit addr _ | setbit addr _ _ => exact if_neg fun hok => (addrOk_iff s addr).mp hok h
  | pkapp w => exact if_neg fun hok => (appendOk_iff_not s w).mp hok h
  | unpk off w _ => exact if_neg fun hok => (fieldOk_iff_not off w).mp hok h
  | crypt start stop => exact if_neg fun hok => (rangeOk_iff_not s start stop).mp hok h
  | csum stop | csumst stop | csumvf stop => exact if_neg fun hok => (sumEndOk_iff_not s stop).mp hok h

/-- Everything a command can do. -/
theorem exec_cases {s t : State} {i : Instr} (h : exec i s = .next t) :
    (Violates s i ∧ t = s.raise .contractError) ∨ (¬Violates s i ∧ t = (s.work i).complete) := by
  by_cases hv : Violates s i
  · rw [exec_of_violates hv] at h
    cases h
    exact .inl ⟨hv, rfl⟩
  · rw [exec_of_not_violates hv] at h
    cases h
    exact .inr ⟨hv, rfl⟩

/-- The contract reads CTRL and POS only (60_exceptions.md R172). -/
theorem violates_congr {s h : State} (hctrl : h.ctrl = s.ctrl) (hpos : h.pos = s.pos) (i : Instr) :
    Violates h i ↔ Violates s i := by
  have hlen : h.len = s.len := by rw [State.len, State.len, hctrl]
  cases i <;> simp only [Violates, hlen, hpos]

/-! What no command writes. -/

section
variable (s : State) (i : Instr)

/-- DECIF either decrypts and sets DECRYPTED or only clears it (42_cipher.md R146). -/
theorem work_decif_cases :
    s.work .decif = s.decryptArray.setDecrypted true ∨ s.work .decif = s.setDecrypted false :=
  ite_eq_or_eq _ _ _

/-- No command writes CTRL, OPA, SEED, the ROM, the ERR bits or anything of the sequencer and the host (10_state.md R24,
R28, R29, R44). -/
theorem work_frame : s.work i = { s with
    status := { s.status with
      clamp := (s.work i).status.clamp, mismatch := (s.work i).status.mismatch
      decrypted := (s.work i).status.decrypted }
    result := (s.work i).result, acc := (s.work i).acc, pos := (s.work i).pos, lcg := (s.work i).lcg
    csum := (s.work i).csum, buf := (s.work i).buf } := by
  cases i with
  | decif => obtain h | h := work_decif_cases s <;> rw [h] <;> rfl
  | perm | crypt => simp only [State.work]
  | _ => rfl

@[simp] theorem State.work_ctrl : (s.work i).ctrl = s.ctrl := by rw [work_frame]
@[simp] theorem State.work_cmdl : (s.work i).cmdl = s.cmdl := by rw [work_frame]
@[simp] theorem State.work_opa : (s.work i).opa = s.opa := by rw [work_frame]
@[simp] theorem State.work_seed : (s.work i).seed = s.seed := by rw [work_frame]
@[simp] theorem State.work_rom : (s.work i).rom = s.rom := by rw [work_frame]
@[simp] theorem State.work_wait : (s.work i).wait = s.wait := by rw [work_frame]
@[simp] theorem State.work_draws : (s.work i).draws = s.draws := by rw [work_frame]
@[simp] theorem State.work_inbox : (s.work i).inbox = s.inbox := by rw [work_frame]
@[simp] theorem State.work_replies : (s.work i).replies = s.replies := by rw [work_frame]
@[simp] theorem State.work_errIllegal : (s.work i).status.errIllegal = s.status.errIllegal := by rw [work_frame]
@[simp] theorem State.work_errContract : (s.work i).status.errContract = s.status.errContract := by rw [work_frame]
@[simp] theorem State.work_errBusy : (s.work i).status.errBusy = s.status.errBusy := by rw [work_frame]

end

/-! The owners of each register and flag (10_state.md R25, R30 to R34, 20_memory.md R71). -/

section
variable (s : State) {i : Instr}

/-- RESULT is written by GETBIT and UNPK (10_state.md R30). -/
theorem work_result (h : i.mnemonic ∉ ["GETBIT", "UNPK"]) : (s.work i).result = s.result := by
  cases i with
  | getbit | unpk => exact absurd h (by simp [Instr.mnemonic])
  | _ => simp [State.work, apply_ite State.result]

/-- ACC and POS are written by PKCLR and PKAPP (10_state.md R31, R32). -/
theorem work_acc_pos (h : i.mnemonic ∉ ["PKCLR", "PKAPP"]) : (s.work i).acc = s.acc ∧ (s.work i).pos = s.pos := by
  cases i with
  | pkclr | pkapp => exact absurd h (by simp [Instr.mnemonic])
  | _ => simp [State.work, apply_ite State.acc, apply_ite State.pos]

end

/-! The invariant over the commands. -/

theorem decryptArray_wf {s : State} (h : s.buf.wf = true) : s.decryptArray.buf.wf = true :=
  permute_wf _ _ (cryptPkm_wf _ _ h)

theorem encryptArray_wf {s : State} (h : s.buf.wf = true) : s.encryptArray.buf.wf = true :=
  cryptPkm_wf _ _ (permute_wf _ _ h)

/-- Every command keeps BUF in its canonical form. -/
theorem work_buf_wf {s : State} (h : s.buf.wf = true) (i : Instr) : (s.work i).buf.wf = true := by
  cases i with
  | setbit addr bit val => exact Memory.set_wf h _ _
  | perm idx sel => exact permute_wf _ _ h
  | crypt start stop => exact cryptRange_wf _ _ _ h
  | decrypt => exact decryptArray_wf h
  | encrypt => exact encryptArray_wf h
  | decif =>
    obtain he | he := work_decif_cases s <;> rw [he]
    · exact decryptArray_wf h
    · exact h
  | csumst stop => exact Memory.memWrite_wf h _ _ _
  | nop | getbit | pkclr | pkapp | unpk | csum | csumvf => exact h

/-- A saturated value fits its width (40_bitfield.md R114). -/
theorem saturate_lt (v w : Nat) : saturate v w < 2 ^ w := by
  have := Nat.two_pow_pos w
  rw [saturate_eq_min]
  omega

/-- POS after an append that fits (40_bitfield.md R114). -/
theorem append_pos_toNat {s : State} {w : Nat} (h : s.pos.toNat + w ≤ 32) :
    (s.append w).pos.toNat = s.pos.toNat + w := by
  simp only [State.append, BitVec.toNat_ofNat]
  omega

/-- An append puts no bit at the new POS or above (10_state.md R31). -/
theorem append_acc_lt {s : State} {w : Nat} (hacc : s.acc.toNat < 2 ^ s.pos.toNat) :
    (s.append w).acc.toNat < 2 ^ (s.pos.toNat + w) := by
  have hfield : saturate s.opa.toNat w * 2 ^ s.pos.toNat < 2 ^ (s.pos.toNat + w) := by
    rw [Nat.pow_add, Nat.mul_comm (2 ^ s.pos.toNat)]
    exact Nat.mul_lt_mul_of_pos_right (saturate_lt _ _) (Nat.two_pow_pos _)
  have hold : s.acc.toNat < 2 ^ (s.pos.toNat + w) :=
    hacc.trans_le (Nat.pow_le_pow_right (by decide) (Nat.le_add_right _ _))
  simp only [State.append, BitVec.toNat_or, BitVec.toNat_ofNat]
  exact Nat.or_lt_two_pow hold ((Nat.mod_le _ _).trans_lt hfield)

/-- Every command whose contract holds keeps the range of POS and the zeros of ACC (10_state.md R31, R32). -/
theorem work_acc_pos_bound {s : State} {i : Instr} (hv : ¬Violates s i) (hpos : s.pos.toNat ≤ 32)
    (hacc : s.acc.toNat < 2 ^ s.pos.toNat) :
    (s.work i).pos.toNat ≤ 32 ∧ (s.work i).acc.toNat < 2 ^ (s.work i).pos.toNat := by
  by_cases ho : i.mnemonic ∉ ["PKCLR", "PKAPP"]
  · obtain ⟨ha, hp⟩ := work_acc_pos s ho
    rw [ha, hp]
    exact ⟨hpos, hacc⟩
  · cases i with
    | pkclr => exact ⟨Nat.zero_le _, Nat.one_pos⟩
    | pkapp w =>
      obtain ⟨-, hw⟩ := (appendOk_iff s w).mp ((appendOk_iff_not s w).mpr hv)
      have hnew := append_pos_toNat hw
      exact ⟨hnew.trans_le hw, hnew.symm ▸ append_acc_lt hacc⟩
    | _ => exact absurd (by simp [Instr.mnemonic]) ho

/-- From `s` to `t` the ROM is not written and the invariant is kept. -/
def Keeps (s t : State) : Prop := t.rom = s.rom ∧ (s.Inv → t.Inv)

theorem Keeps.trans {s t u : State} (h : Keeps s t) (h' : Keeps t u) : Keeps s u :=
  ⟨h'.1.trans h.1, h'.2 ∘ h.2⟩

/-- A change to none of the fields the invariant is about keeps it. -/
theorem Keeps.of_eq {s t : State} (hbuf : t.buf = s.buf) (hpos : t.pos = s.pos) (hacc : t.acc = s.acc)
    (hrom : t.rom = s.rom) : Keeps s t :=
  ⟨hrom, by simp only [State.Inv, hbuf, hpos, hacc, hrom, imp_self]⟩

/-- A write of the canonical buffer `m` keeps the invariant. -/
theorem Keeps.of_buf {s : State} {m : Memory} (h : s.buf.wf = true → m.wf = true) : Keeps s { s with buf := m } :=
  ⟨rfl, And.imp_left h⟩

theorem exec_keeps {s t : State} {i : Instr} (h : exec i s = .next t) : Keeps s t := by
  obtain ⟨-, rfl⟩ | ⟨hv, rfl⟩ := exec_cases h
  · exact .of_eq rfl rfl rfl rfl
  · refine ⟨State.work_rom s i, fun ⟨hbuf, hpos, hacc, hrom⟩ => ?_⟩
    obtain ⟨hpos', hacc'⟩ := work_acc_pos_bound hv hpos hacc
    exact ⟨work_buf_wf hbuf i, hpos', hacc', (State.work_rom s i).symm ▸ hrom⟩

/-! The invariant over the host's turn and over a step. -/

theorem perform_keeps (s : State) (t : Transaction) : Keeps s (s.perform t).1 := by
  cases t with
  | read addr size =>
    obtain he | he := portRead_cases s addr.toNat size.bytes <;> rw [State.perform, he] <;> exact .of_eq rfl rfl rfl rfl
  | write addr size d =>
    obtain he | he | ⟨-, he⟩ | ⟨-, he | he | he | he | ⟨a, he⟩⟩ := portWrite_cases s addr.toNat size.bytes d <;>
      rw [State.perform, he]
    case inr.inr.inr.inr.inr.inr.inr => exact .of_buf fun h => Memory.memWrite_wf h _ _ _
    all_goals exact .of_eq rfl rfl rfl rfl

/-- The reset event keeps the ROM and leaves POS = 0, ACC = 0 and an empty BUF (70_reset_and_hazards.md R190). -/
theorem resetEvent_keeps (s : State) : Keeps s s.resetEvent :=
  ⟨rfl, fun ⟨_, _, _, hrom⟩ => ⟨rfl, Nat.zero_le _, Nat.one_pos, hrom⟩⟩

theorem hostTurn_keeps {s h : State} (ht : hostTurn s = .next h) : Keeps s h := by
  have hinbox : Keeps s { s with inbox := s.inbox.tail } := .of_eq rfl rfl rfl rfl
  obtain ⟨rfl, -⟩ | ⟨rfl, -⟩ | ⟨t, -, rfl⟩ | ⟨-, rfl⟩ := hostTurn_cases ht
  · exact .of_eq rfl rfl rfl rfl
  · exact hinbox
  · exact (hinbox.trans (perform_keeps _ t)).trans (.of_eq rfl rfl rfl rfl)
  · exact hinbox.trans (resetEvent_keeps _)

theorem step_keeps {s t : State} (hs : step s = .next t) : Keeps s t := by
  obtain ⟨h, hh, hend⟩ := step_cases hs
  refine (hostTurn_keeps hh).trans ?_
  obtain ⟨-, rfl⟩ | ⟨-, -, rfl⟩ | ⟨-, -, -, rfl⟩ | ⟨-, -, i, -, he⟩ := hend
  · exact .of_eq rfl rfl rfl rfl
  · exact .of_eq rfl rfl rfl rfl
  · exact .of_eq rfl rfl rfl rfl
  · exact exec_keeps he

/-- Settles O13: the host's turn, a waiting cycle, an IllegalCommand and every command keep the invariant. -/
theorem stepKeepsTheInvariant : Obligations.StepKeepsTheInvariant := fun _ _ hs => step_keeps hs

end Sys2Proof.Machine

/-! PROOFS, 10_state.md. What an access to a register or to nothing answers and does (20_memory.md R61, R65, R66). -/

namespace Sys2Proof.Machine
open Sys2Proof.Claims

section
variable {s : State} {addr : BitVec 12} {r : Reg}

/-- A read of a register that has a value: BUSY = 0, or none of its bits is free (10_state.md R36). -/
theorem perform_read_value (ht : target addr.toNat 4 = .reg r) (h : s.status.busy = false ∨ r.freeBits = 0) :
    s.perform (.read addr .word) = (s, ⟨.ok, s.regValue r⟩) := by
  have hvalue : ¬(s.status.busy && decide (r.freeBits ≠ 0)) = true := by
    obtain h | h := h <;> simp [h]
  simp only [State.perform, State.portRead, Size.bytes, ht]
  exact if_neg hvalue

/-- A read of a result register while BUSY = 1 draws a free value (10_state.md R36). -/
theorem perform_read_free (ht : target addr.toNat 4 = .reg r) (hb : s.status.busy = true) (hr : r.freeBits ≠ 0) :
    s.perform (.read addr .word) = s.drawRead r.freeBits := by
  simp only [State.perform, State.portRead, Size.bytes, ht, hb]
  exact if_pos (by simp [hr])

/-- The datum of a drawn read: the free value's low bits (10_state.md R36). -/
theorem drawRead_data_toNat (s : State) (bits : Nat) :
    (s.drawRead bits).2.data.toNat = (Config.busyRead s.draws).toNat % 2 ^ bits :=
  (BitVec.toNat_ofNat _ _).trans (Nat.mod_eq_of_lt ((Nat.mod_le _ _).trans_lt (Config.busyRead s.draws).isLt))

/-- A drawn read of all 32 bits is the free value. -/
theorem drawRead_word (s : State) : (s.drawRead 32).2 = ⟨.ok, Config.busyRead s.draws⟩ :=
  congrArg (Reply.mk .ok) (BitVec.eq_of_toNat_eq
    ((drawRead_data_toNat s 32).trans (Nat.mod_eq_of_lt (Config.busyRead s.draws).isLt)))

/-- What a read of a whole free register gives (10_state.md R36). -/
theorem perform_read_word_free (ht : target addr.toNat 4 = .reg r) (hb : s.status.busy = true) (hr : r.freeBits = 32) :
    (s.perform (.read addr .word)).2 = ⟨.ok, Config.busyRead s.draws⟩ := by
  rw [perform_read_free ht hb (by simp [hr]), hr, drawRead_word]

/-- A write to a register word is answered with OK (20_memory.md R61). -/
theorem perform_write_reg (ht : target addr.toNat 4 = .reg r) (d : Word) :
    s.perform (.write addr .word d) = (s.regWrite d r, ⟨.ok, 0⟩) := by
  simp only [State.perform, State.portWrite, Size.bytes, ht]
  rfl

/-- An access that names nothing does nothing (20_memory.md R64, R65, R66). -/
theorem perform_error {size : Size} (ht : target addr.toNat size.bytes = .error) (d : Word) :
    s.perform (.read addr size) = (s, ⟨.error, 0⟩) ∧ s.perform (.write addr size d) = (s, ⟨.error, 0⟩) := by
  simp only [State.perform, State.portRead, State.portWrite, ht]
  exact ⟨rfl, rfl⟩

/-- The reserved words (10_state.md R35). -/
theorem regAt_reserved {ofs : Nat} (h : 0x02C ≤ ofs) : regAt ofs = .reserved := by
  unfold regAt
  repeat rw [if_neg (by omega)]

theorem Size.bytes_ne_four {size : Size} (h : size ≠ .word) : size.bytes ≠ 4 := by
  cases size with
  | byte | half => decide
  | word => exact absurd rfl h

/-- A read while BUSY = 0 draws nothing (20_memory.md R69). -/
theorem portRead_idle (h : s.status.busy = false) (addr n : Nat) : (s.portRead addr n).1 = s := by
  unfold State.portRead
  split
  · rfl
  · simp [h]
  · simp [h]

/-- Only while BUSY = 1 does a read draw a free value, and nothing else (10_state.md R36, 20_memory.md R69). -/
theorem perform_read_state (s : State) (addr : BitVec 12) (size : Size) :
    (s.perform (.read addr size)).1 = s ∨
      (s.status.busy = true ∧ (s.perform (.read addr size)).1 = { s with draws := s.draws + 1 }) := by
  cases hb : s.status.busy with
  | false => exact .inl (portRead_idle hb _ _)
  | true => exact (portRead_cases s addr.toNat size.bytes).imp_right fun h => ⟨rfl, h⟩

end

/-- Settles O17: a read changes at most the count of draws; which registers have free bits decides what each reads. -/
theorem readsHaveNoSideEffect : Obligations.ReadsHaveNoSideEffect := by
  intro s
  refine ⟨perform_read_state s, perform_read_value (r := .id) rfl (.inr rfl),
    perform_read_value (r := .ctrl) rfl (.inr rfl), perform_read_value (r := .status) rfl (.inr rfl),
    perform_read_value (r := .opa) rfl (.inr rfl), perform_read_value (r := .seed) rfl (.inr rfl), fun hb => ⟨?_, ?_, ?_⟩⟩
  · rintro ofs (rfl | rfl | rfl)
    · exact perform_read_word_free (r := .result) rfl hb rfl
    · exact perform_read_word_free (r := .acc) rfl hb rfl
    · exact perform_read_word_free (r := .lcg) rfl hb rfl
  · rw [readWord, perform_read_free (r := .pos) rfl hb (by decide)]
    exact drawRead_data_toNat s 6
  · rw [readWord, perform_read_free (r := .csum) rfl hb (by decide)]
    exact drawRead_data_toNat s 16

/-- Settles O19: ID, the result registers and the reserved words have no arm in `regWrite`, and ID and the reserved words no
free bits; an access there of another size or alignment names nothing. -/
theorem readOnlyAndReservedWordsIgnoreWrites : Obligations.ReadOnlyAndReservedWordsIgnoreWrites := by
  intro s d
  refine ⟨perform_read_value (r := .id) rfl (.inr rfl), ?_, fun addr hlo hhi => ⟨fun h4 => ?_, fun size h => ?_⟩⟩
  · rintro ofs (rfl | rfl | rfl | rfl | rfl | rfl)
    · exact perform_write_reg (r := .id) rfl d
    · exact perform_write_reg (r := .result) rfl d
    · exact perform_write_reg (r := .acc) rfl d
    · exact perform_write_reg (r := .pos) rfl d
    · exact perform_write_reg (r := .lcg) rfl d
    · exact perform_write_reg (r := .csum) rfl d
  · have ht : target addr.toNat 4 = .reg .reserved := by
      rw [target_reg (by omega) h4, regAt_reserved hlo]
    exact ⟨perform_read_value ht (.inr rfl), perform_write_reg ht d⟩
  · exact perform_error (target_error (.inl ⟨by omega, h.symm.imp_left Size.bytes_ne_four⟩)) d

/-- Settles O18: while BUSY = 0 no read draws; POS and CSUM are zero-extended. -/
theorem idleReadsGiveTheResults : Obligations.IdleReadsGiveTheResults := by
  intro s hb
  refine ⟨perform_read_value (r := .result) rfl (.inl hb), perform_read_value (r := .acc) rfl (.inl hb),
    perform_read_value (r := .lcg) rfl (.inl hb), ⟨_, perform_read_value (r := .pos) rfl (.inl hb), ?_⟩,
    _, perform_read_value (r := .csum) rfl (.inl hb), ?_⟩
  · have hval : (s.regValue .pos).toNat = s.pos.toNat := BitVec.toNat_setWidth_of_le (by decide)
    exact ⟨hval, hval.trans_lt s.pos.isLt⟩
  · have hval : (s.regValue .csum).toNat = s.csum.toNat := BitVec.toNat_setWidth_of_le (by decide)
    exact ⟨hval, hval.trans_lt s.csum.isLt⟩

end Sys2Proof.Machine

/-! PROOFS, 10_state.md. Which command writes which register (R25, R30 to R34, 20_memory.md R71). -/

namespace Sys2Proof.Machine
open Sys2Proof.Claims

section
variable (s : State) {i : Instr}

/-- CLAMP is written by PKAPP (10_state.md R25). -/
theorem work_clamp (h : i.mnemonic ≠ "PKAPP") : (s.work i).status.clamp = s.status.clamp := by
  cases i with
  | pkapp => exact absurd rfl h
  | _ => simp [State.work, apply_ite State.status, apply_ite Status.clamp]

/-- LCG is written by the cipher commands (10_state.md R33). -/
theorem work_lcg (h : i.mnemonic ∉ ["CRYPT", "DECRYPT", "ENCRYPT", "DECIF"]) : (s.work i).lcg = s.lcg := by
  cases i with
  | crypt | decrypt | encrypt | decif => exact absurd h (by simp [Instr.mnemonic])
  | _ => simp [State.work]

/-- CSUM is written by the checksum commands (10_state.md R34). -/
theorem work_csum (h : i.mnemonic ∉ ["CSUM", "CSUMST", "CSUMVF"]) : (s.work i).csum = s.csum := by
  cases i with
  | csum | csumst | csumvf => exact absurd h (by simp [Instr.mnemonic])
  | _ => simp [State.work, apply_ite State.csum]

/-- MISMATCH is written by CSUMVF (10_state.md R25). -/
theorem work_mismatch (h : i.mnemonic ≠ "CSUMVF") : (s.work i).status.mismatch = s.status.mismatch := by
  cases i with
  | csumvf => exact absurd rfl h
  | _ => simp [State.work, apply_ite State.status, apply_ite Status.mismatch]

/-- DECRYPTED is written by DECIF (10_state.md R25). -/
theorem work_decrypted (h : i.mnemonic ≠ "DECIF") : (s.work i).status.decrypted = s.status.decrypted := by
  cases i with
  | decif => exact absurd rfl h
  | _ => simp [State.work]

/-- BUF is written by the commands that store (20_memory.md R71). -/
theorem work_buf (h : i.mnemonic ∉ ["SETBIT", "PERM", "CRYPT", "DECRYPT", "ENCRYPT", "DECIF", "CSUMST"]) :
    (s.work i).buf = s.buf := by
  cases i with
  | setbit | perm | crypt | decrypt | encrypt | decif | csumst => exact absurd h (by simp [Instr.mnemonic])
  | _ => rfl

@[simp] theorem decryptArray_buf_epoch : s.decryptArray.buf.epoch = s.buf.epoch := by simp [State.decryptArray]

@[simp] theorem encryptArray_buf_epoch : s.encryptArray.buf.epoch = s.buf.epoch := by simp [State.encryptArray]

/-- No command is a reset of BUF (10_state.md R43). -/
@[simp] theorem work_buf_epoch : (s.work i).buf.epoch = s.buf.epoch := by
  cases i with
  | decif => obtain he | he := work_decif_cases s <;> rw [he] <;> simp
  | setbit | perm | crypt | decrypt | encrypt | csumst => simp [State.work]
  | _ => rfl

end

/-- Settles O27: a broken contract leaves every register, and a command's work has one owner lemma per register and flag. -/
theorem onlyTheOwnerWritesARegister : Obligations.OnlyTheOwnerWritesARegister := by
  intro s i
  by_cases hv : Violates s i
  · refine ⟨_, exec_of_violates hv, ?_⟩
    simp [Status.record]
  · refine ⟨_, exec_of_not_violates hv, ?_⟩
    exact ⟨rfl, rfl, s.work_errBusy i, s.work_errIllegal i, s.work_ctrl i, s.work_opa i, s.work_seed i, s.work_cmdl i,
      s.work_wait i, s.work_draws i, s.work_inbox i, s.work_replies i, work_buf_epoch s, s.work_rom i, work_result s,
      work_acc_pos s, work_clamp s, work_lcg s, work_csum s, work_mismatch s, work_decrypted s, work_buf s⟩

end Sys2Proof.Machine

/-! PROOFS, 10_state.md R42. The commands at FORM = 0: what they read and write lies below byte 328. -/

namespace Sys2Proof.Machine
open Sys2Proof.Claims

/-- The two buffers hold the same bytes below `n`. -/
def AgreeBelow (n : Nat) (m m' : Memory) : Prop := ∀ x < n, m.get x = m'.get x

section
variable {m m' : Memory}

theorem AgreeBelow.memRead (h : AgreeBelow 328 m m') {a n : Nat} (hn : a + n ≤ 328) : m.memRead a n = m'.memRead a n :=
  Memory.memRead_congr n a fun k hk => h (a + k) (by omega)

theorem AgreeBelow.seed (h : AgreeBelow 328 m m') : m.seed = m'.seed :=
  Memory.seed_congr fun k hk => h k (by omega)

theorem AgreeBelow.storedCsum (h : AgreeBelow 328 m m') : m.storedCsum = m'.storedCsum :=
  congrArg (BitVec.ofNat 16) (h.memRead (by decide))

theorem AgreeBelow.checksum (h : AgreeBelow 328 m m') {stop : Nat} (hs : stop ≤ 328) :
    checksum m stop = checksum m' stop :=
  checksum_congr fun x _ hx => h x (by omega)

/-- Both guard words lie inside the blocks region (00_scope.md R7). -/
theorem AgreeBelow.guardsNonzero (h : AgreeBelow 328 m m') : guardsNonzero m = guardsNonzero m' := by
  have hA : Config.guardOfsA + 2 ≤ 328 := by have := Config.guardSlotA.isLt; unfold Config.guardOfsA; omega
  have hB : Config.guardOfsB + 2 ≤ 328 := by have := Config.guardSlotB.isLt; unfold Config.guardOfsB; omega
  rw [Machine.guardsNonzero, Machine.guardsNonzero, h.memRead hA, h.memRead hB]

theorem AgreeBelow.set (h : AgreeBelow 328 m m') (a : Nat) (v : Byte) : AgreeBelow 328 (m.set a v) (m'.set a v) := by
  intro x hx
  rw [Memory.get_set, Memory.get_set, h x hx]

theorem AgreeBelow.memWrite (h : AgreeBelow 328 m m') (n a v : Nat) :
    AgreeBelow 328 (m.memWrite a n v) (m'.memWrite a n v) := by
  intro x hx
  rw [Memory.get_memWrite, Memory.get_memWrite, h x hx]

/-- `Permute` reads and writes the blocks region only (41_permute.md R130). -/
theorem AgreeBelow.permute (h : AgreeBelow 328 m m') (t : Config.Tables) (r : Nat) :
    AgreeBelow 328 (permute t r m) (permute t r m') := by
  intro x hx
  by_cases h8 : x < 8
  · rw [permute_get_outside t r m (.inl h8), permute_get_outside t r m' (.inl h8), h x hx]
  · obtain ⟨blk, hb, k, hk, rfl⟩ := block_cases (by omega) hx
    have hrow := row_lt t r blk
    rw [permute_get_block t r m hb hk, permute_get_block t r m' hb hk, h _ (by omega)]

/-- The cipher maps each byte by its own position (42_cipher.md R141). -/
theorem AgreeBelow.cryptRange (h : AgreeBelow 328 m m') (k : Word) (a b : Nat) :
    AgreeBelow 328 (cryptRange k a b m).1 (cryptRange k a b m').1 := by
  intro x hx
  rw [Machine.cryptRange, Machine.cryptRange, cryptLoop_get, cryptLoop_get, h x hx]

end

/-- `CryptRange` does not write beyond its end (42_cipher.md R141). -/
theorem cryptRange_get_beyond (k : Word) {a b x : Nat} (m : Memory) (hx : a ≤ b) (hb : b ≤ x) :
    (cryptRange k a b m).1.get x = m.get x := by
  rw [cryptRange, cryptLoop_get, if_neg (by omega)]

section
variable {s : State} (hform : s.ctrl.form = false)
include hform

theorem len_stored : s.len = 328 := by
  rw [State.len, hform]
  rfl

/-- DECRYPT's work at FORM = 0 (42_cipher.md R143, R144). -/
theorem decryptArray_stored : s.decryptArray = { s with
    lcg := lcgStep^[160] s.buf.seed
    buf := permute s.rom (shuffleIndex s.buf.seed) (cryptRange s.buf.seed 8 328 s.buf).1 } := by
  simp only [State.decryptArray, len_stored hform, cryptPkm_stored, cryptRange_state]

/-- ENCRYPT's work at FORM = 0 (42_cipher.md R143, R145). -/
theorem encryptArray_stored : s.encryptArray = { s with
    lcg := lcgStep^[160] s.buf.seed
    buf := (cryptRange s.buf.seed 8 328 (permute s.rom (s.rom.invRow (shuffleIndex s.buf.seed)) s.buf)).1 } := by
  simp only [State.encryptArray, len_stored hform, cryptPkm_stored, cryptRange_state]

theorem decryptArray_get_party {x : Nat} (hx : 328 ≤ x) : s.decryptArray.buf.get x = s.buf.get x := by
  rw [decryptArray_stored hform]
  exact (permute_get_outside _ _ _ (.inr hx)).trans (cryptRange_get_beyond _ _ (by decide) hx)

theorem encryptArray_get_party {x : Nat} (hx : 328 ≤ x) : s.encryptArray.buf.get x = s.buf.get x := by
  rw [encryptArray_stored hform]
  exact (cryptRange_get_beyond _ _ (by decide) hx).trans (permute_get_outside _ _ _ (.inr hx))

/-- At FORM = 0 no command writes a byte from 328 on. -/
theorem work_get_party {i : Instr} (hv : ¬Violates s i) {x : Nat} (hx : 328 ≤ x) :
    (s.work i).buf.get x = s.buf.get x := by
  have hlen := len_stored hform
  cases i with
  | setbit addr bit val =>
    have haddr : ¬s.len ≤ addr := hv
    exact (Memory.get_set _ _ _ _).trans (if_neg (by omega))
  | perm idx sel =>
    simp only [State.work]
    exact permute_get_outside _ _ _ (.inr hx)
  | crypt start stop =>
    have hrange : ¬(stop ≤ start ∨ s.len < stop ∨ (stop - start) % 2 = 1) := hv
    simp only [State.work]
    exact cryptRange_get_beyond _ _ (by omega) (by omega)
  | decrypt => exact decryptArray_get_party hform hx
  | encrypt => exact encryptArray_get_party hform hx
  | decif =>
    obtain he | he := work_decif_cases s <;> rw [he]
    · exact decryptArray_get_party hform hx
    · rfl
  | csumst stop =>
    simp only [State.work, Memory.get_memWrite, Config.csumOfs]
    exact if_neg (by omega)
  | nop | getbit | pkclr | pkapp | unpk | csum | csumvf => rfl

end

/-- `u` is `s` but for bytes of BUF from 328 on. -/
def AlikeButParty (s u : State) : Prop := { u with buf := s.buf } = s ∧ AgreeBelow 328 u.buf s.buf

/-- Writing DECRYPTED does not tell the two apart. -/
theorem AlikeButParty.setDecrypted {s u : State} (h : AlikeButParty s u) (d : Bool) :
    AlikeButParty (s.setDecrypted d) (u.setDecrypted d) :=
  ⟨congrArg (State.setDecrypted d) h.1, h.2⟩

section
variable {s : State} {m : Memory} (hform : s.ctrl.form = false) (hm : AgreeBelow 328 m s.buf)
include hform hm

theorem decryptArray_alike : AlikeButParty s.decryptArray (State.decryptArray { s with buf := m }) := by
  rw [decryptArray_stored hform, decryptArray_stored (s := { s with buf := m }) hform]
  simp only [AlikeButParty, hm.seed]
  exact ⟨trivial, (hm.cryptRange _ _ _).permute _ _⟩

theorem encryptArray_alike : AlikeButParty s.encryptArray (State.encryptArray { s with buf := m }) := by
  rw [encryptArray_stored hform, encryptArray_stored (s := { s with buf := m }) hform]
  simp only [AlikeButParty, hm.seed]
  exact ⟨trivial, (hm.permute _ _).cryptRange _ _ _⟩

/-- A command inside its contract does the same work on two buffers that agree on the stored bytes (10_state.md R42). -/
theorem work_alike {i : Instr} (hv : ¬Violates s i) : AlikeButParty (s.work i) (State.work { s with buf := m } i) := by
  have hlen := len_stored hform
  cases i with
  | nop | pkclr | pkapp _ | unpk _ _ _ => exact ⟨rfl, hm⟩
  | getbit addr bit =>
    have haddr : ¬s.len ≤ addr := hv
    simp only [State.work, AlikeButParty, hm addr (by omega)]
    exact ⟨trivial, hm⟩
  | setbit addr bit val =>
    have haddr : ¬s.len ≤ addr := hv
    simp only [State.work, AlikeButParty, hm addr (by omega)]
    exact ⟨trivial, hm.set _ _⟩
  | perm idx sel =>
    simp only [State.work]
    exact ⟨rfl, hm.permute _ _⟩
  | crypt start stop =>
    simp only [State.work, AlikeButParty, cryptRange_state]
    exact ⟨trivial, hm.cryptRange _ _ _⟩
  | decrypt => exact decryptArray_alike hform hm
  | encrypt => exact encryptArray_alike hform hm
  | decif =>
    simp only [State.work, hm.guardsNonzero]
    split
    · exact (decryptArray_alike hform hm).setDecrypted true
    · exact AlikeButParty.setDecrypted ⟨rfl, hm⟩ false
  | csum stop =>
    have hstop : ¬(stop < 8 ∨ s.len < stop ∨ stop % 2 = 1) := hv
    simp only [State.work, AlikeButParty, hm.checksum (show stop ≤ 328 by omega)]
    exact ⟨trivial, hm⟩
  | csumst stop =>
    have hstop : ¬(stop < 8 ∨ s.len < stop ∨ stop % 2 = 1) := hv
    simp only [State.work, AlikeButParty, hm.checksum (show stop ≤ 328 by omega)]
    exact ⟨trivial, hm.memWrite _ _ _⟩
  | csumvf stop =>
    have hstop : ¬(stop < 8 ∨ s.len < stop ∨ stop % 2 = 1) := hv
    simp only [State.work, AlikeButParty, hm.checksum (show stop ≤ 328 by omega), hm.storedCsum]
    exact ⟨trivial, hm⟩

end

/-- Settles O30: the work of every command is the same on two buffers that agree below 328, and it writes no byte from 328
on; a broken contract writes STATUS only. -/
theorem storedFormHidesThePartyBytes : Obligations.StoredFormHidesThePartyBytes := by
  intro s i m hform hm
  have hcongr : Violates { s with buf := m } i ↔ Violates s i := violates_congr rfl rfl i
  by_cases hv : Violates s i
  · exact ⟨_, _, exec_of_violates hv, exec_of_violates (hcongr.mpr hv), rfl, hm, fun _ _ => ⟨rfl, rfl⟩⟩
  · have hvm := mt hcongr.mp hv
    obtain ⟨hrest, hbuf⟩ := work_alike hform hm hv
    exact ⟨_, _, exec_of_not_violates hv, exec_of_not_violates hvm, congrArg State.complete hrest, hbuf,
      fun x hx => ⟨work_get_party hform hv hx, work_get_party (s := { s with buf := m }) hform hvm hx⟩⟩

end Sys2Proof.Machine

/-! PROOFS, 30_encoding.md R92 to R96. An illegal word does not decode. -/

namespace Sys2Proof
open Sys2Proof.Claims

/-- The word with the bits `hi` to `lo` set. -/
def fieldMask (hi lo : Nat) : Word := BitVec.ofNat 32 ((2 ^ (hi + 1 - lo) - 1) * 2 ^ lo)

/-- A word masked to one field is that field at its place (00_scope.md R8). -/
theorem and_fieldMask (c : Word) (hi lo : Nat) : c &&& fieldMask hi lo = BitVec.ofNat 32 (fld c hi lo * 2 ^ lo) := by
  apply BitVec.eq_of_getLsbD_eq
  intro j hj
  simp only [fieldMask, fld, BitVec.getLsbD_and, BitVec.getLsbD_ofNat, hj, decide_true, Bool.true_and,
    Nat.testBit_mul_two_pow, Nat.testBit_two_pow_sub_one, Nat.testBit_mod_two_pow, Nat.testBit_div_two_pow]
  by_cases hlo : lo ≤ j
  · rw [Nat.sub_add_cancel hlo, BitVec.testBit_toNat]
    simp [hlo, Bool.and_comm]
  · simp [hlo]

/-- Two fields' values give the match of a mask that covers both. -/
theorem and_eq_of_and {c m v m' v' : Word} (h : c &&& m = v) (h' : c &&& m' = v') : c &&& (m ||| m') = v ||| v' := by
  rw [BitVec.and_or_distrib_left, h, h']

theorem and_fieldMask_of_fld {c : Word} {hi lo v : Nat} (h : fld c hi lo = v) :
    c &&& fieldMask hi lo = BitVec.ofNat 32 (v * 2 ^ lo) := by
  rw [and_fieldMask, h]

/-- OP and a reserved field that is 0 give the match of the row whose mask covers the two (30_encoding.md R92, R95). -/
theorem and_eq_of_op_reserved {c mask : Word} {op hi lo : Nat} (hm : fieldMask 7 0 ||| fieldMask hi lo = mask)
    (hop : fld c 7 0 = op) (hr : fld c hi lo = 0) : c &&& mask = BitVec.ofNat 32 op := by
  rw [← hm, and_eq_of_and (and_fieldMask_of_fld hop) (and_fieldMask_of_fld hr)]
  simp

/-- The word matches the row of the opcode map that has the command's mnemonic (30_encoding.md R92). -/
def MatchesRow (c : Word) (i : Instr) : Prop := ∃ r ∈ opcodeMap, r.mnemonic = i.mnemonic ∧ c &&& r.mask = r.value

/-- A row whose mask covers OP and one reserved field (30_encoding.md R95). -/
theorem matchesRow_of_reservedZero {c : Word} {i j : Instr} {op hi lo k : Nat} {r : OpcodeRow}
    (hk : opcodeMap[k]? = some r) (hm : fieldMask 7 0 ||| fieldMask hi lo = r.mask) (hv : BitVec.ofNat 32 op = r.value)
    (hn : r.mnemonic = i.mnemonic) (hop : fld c 7 0 = op) (h : reservedZero (fld c hi lo) i = .ok j) :
    MatchesRow c j := by
  obtain ⟨hr, rfl⟩ := reservedZero_ok h
  exact ⟨r, List.mem_of_getElem? hk, hn, (and_eq_of_op_reserved hm hop hr).trans hv⟩

/-- UNPK's row has two reserved fields (30_encoding.md R82, R95). -/
theorem matchesRow_of_unpk {c : Word} {i : Instr} {off w : Nat} {src : Src} (hop : fld c 7 0 = 0x05)
    (h : reservedZero (fld c 31 22 + fld c 15 15) (.unpk off w src) = .ok i) : MatchesRow c i := by
  obtain ⟨hr, rfl⟩ := reservedZero_ok h
  obtain ⟨hhigh, hlow⟩ := Nat.add_eq_zero_iff.mp hr
  refine ⟨⟨"UNPK", 0xFFC080FF, 0x00000005⟩, by decide, rfl, ?_⟩
  exact and_eq_of_and (and_eq_of_op_reserved (mask := 0xFFC000FF) (by decide) hop hhigh) (and_fieldMask_of_fld hlow)

/-- The rows of format K have MODE in their match (30_encoding.md R89, R96). -/
theorem matchesRow_of_checksum {c : Word} {i : Instr} (hop : fld c 7 0 = 0x30) (h : decodeChecksum c = .ok i) :
    MatchesRow c i := by
  unfold decodeChecksum at h
  split_ifs at h with hr h0 h1 h2 <;> cases h <;>
    have hfixed := and_eq_of_op_reserved (mask := 0xFFF800FF) (by decide) hop (not_not.mp hr)
  · exact ⟨⟨"CSUM", 0xFFFE00FF, 0x00000030⟩, by decide, rfl, and_eq_of_and hfixed (and_fieldMask_of_fld h0)⟩
  · exact ⟨⟨"CSUMST", 0xFFFE00FF, 0x00020030⟩, by decide, rfl, and_eq_of_and hfixed (and_fieldMask_of_fld h1)⟩
  · exact ⟨⟨"CSUMVF", 0xFFFE00FF, 0x00040030⟩, by decide, rfl, and_eq_of_and hfixed (and_fieldMask_of_fld h2)⟩

/-- A word that decodes matches its command's row (30_encoding.md R92). -/
theorem matchesRow_of_decode {c : Word} {i : Instr} (h : decode c = .ok i) : MatchesRow c i := by
  unfold decode at h
  obtain ⟨nop, h⟩ | ⟨-, h⟩ := ite_eq_iff.mp h
  · exact matchesRow_of_reservedZero (k := 0) rfl (by decide) rfl rfl nop h
  obtain ⟨getbit, h⟩ | ⟨-, h⟩ := ite_eq_iff.mp h
  · exact matchesRow_of_reservedZero (k := 1) rfl (by decide) rfl rfl getbit h
  obtain ⟨setbit, h⟩ | ⟨-, h⟩ := ite_eq_iff.mp h
  · exact matchesRow_of_reservedZero (k := 2) rfl (by decide) rfl rfl setbit h
  obtain ⟨pkclr, h⟩ | ⟨-, h⟩ := ite_eq_iff.mp h
  · exact matchesRow_of_reservedZero (k := 3) rfl (by decide) rfl rfl pkclr h
  obtain ⟨pkapp, h⟩ | ⟨-, h⟩ := ite_eq_iff.mp h
  · exact matchesRow_of_reservedZero (k := 4) rfl (by decide) rfl rfl pkapp h
  obtain ⟨unpk, h⟩ | ⟨-, h⟩ := ite_eq_iff.mp h
  · exact matchesRow_of_unpk unpk h
  obtain ⟨perm, h⟩ | ⟨-, h⟩ := ite_eq_iff.mp h
  · exact matchesRow_of_reservedZero (k := 6) rfl (by decide) rfl rfl perm h
  obtain ⟨crypt, h⟩ | ⟨-, h⟩ := ite_eq_iff.mp h
  · exact matchesRow_of_reservedZero (k := 7) rfl (by decide) rfl rfl crypt h
  obtain ⟨decrypt, h⟩ | ⟨-, h⟩ := ite_eq_iff.mp h
  · exact matchesRow_of_reservedZero (k := 8) rfl (by decide) rfl rfl decrypt h
  obtain ⟨encrypt, h⟩ | ⟨-, h⟩ := ite_eq_iff.mp h
  · exact matchesRow_of_reservedZero (k := 9) rfl (by decide) rfl rfl encrypt h
  obtain ⟨decif, h⟩ | ⟨-, h⟩ := ite_eq_iff.mp h
  · exact matchesRow_of_reservedZero (k := 10) rfl (by decide) rfl rfl decif h
  obtain ⟨checksum, h⟩ | ⟨-, h⟩ := ite_eq_iff.mp h
  · exact matchesRow_of_checksum checksum h
  cases h

/-- Every mask covers OP, and MODE in format K; every match has an assigned OP, and no MODE = 3 (30_encoding.md R92). -/
theorem opcodeMap_fields : ∀ r ∈ opcodeMap, (fld r.mask 7 0 = 255 ∧ fld r.value 7 0 ∈ assignedOps) ∧
    (fld r.value 7 0 = 0x30 → fld r.mask 18 17 = 3 ∧ fld r.value 18 17 ≠ 3) := by decide

/-- A word that matches a row has its OP assigned and is no format K word with MODE = 3. -/
theorem MatchesRow.not_illegal {c : Word} {i : Instr} (h : MatchesRow c i) : ¬Illegal c := by
  obtain ⟨r, hr, -, hmatch⟩ := h
  obtain ⟨hop, hmode⟩ := opcodeMap_fields r hr
  have hfld := fld_of_mask hmatch 7 0 hop.1
  rintro (h | ⟨h30, h3⟩ | h)
  · exact h (hfld ▸ hop.2)
  · obtain ⟨hmask, hvalue⟩ := hmode (hfld ▸ h30)
    exact hvalue (fld_of_mask hmatch 18 17 hmask ▸ h3)
  · exact h r hr hmatch

/-- An illegal word is rejected (30_encoding.md R94, R95, R96). -/
theorem decode_of_illegal {c : Word} (h : Illegal c) : ∃ r, decode c = .error r := by
  cases hd : decode c with
  | error r => exact ⟨r, rfl⟩
  | ok i => exact absurd h (matchesRow_of_decode hd).not_illegal

end Sys2Proof

/-! PROOFS, 10_state.md R24 to R29, R49. The bits of CTRL and STATUS, the operand registers and `irq`. -/

namespace Sys2Proof.Machine
open Sys2Proof.Claims

/-- STATUS as a binary numeral, BUSY the lowest bit (10_state.md R25). -/
theorem Status.toWord_eq_bits (st : Status) : st.toWord = BitVec.ofNat 32
    (Nat.bit st.busy (Nat.bit st.done (Nat.bit st.errIllegal (Nat.bit st.errContract (Nat.bit st.errBusy
      (Nat.bit st.clamp (Nat.bit st.mismatch (Nat.bit st.decrypted 0)))))))) := by
  simp only [Status.toWord, Nat.bit_val]
  congr 1
  omega

/-- Where each bit of STATUS stands (10_state.md R25). -/
theorem Status.toWord_getLsbD (st : Status) (j : Nat) : st.toWord.getLsbD j =
    if j = 0 then st.busy else if j = 1 then st.done else if j = 2 then st.errIllegal
    else if j = 3 then st.errContract else if j = 4 then st.errBusy else if j = 5 then st.clamp
    else if j = 6 then st.mismatch else if j = 7 then st.decrypted else false := by
  rw [Status.toWord_eq_bits, BitVec.getLsbD_ofNat]
  match j with
  | 0 | 1 | 2 | 3 | 4 | 5 | 6 | 7 => simp [Nat.testBit_bit_succ]
  | k + 8 => simp [Nat.testBit_bit_succ]

/-- Where each bit of CTRL stands (10_state.md R24). -/
theorem Ctrl.toWord_getLsbD (c : Ctrl) (j : Nat) :
    c.toWord.getLsbD j = if j = 0 then c.form else if j = 1 then c.irqEn else false := by
  have hbits : c.toWord = BitVec.ofNat 32 (Nat.bit c.form (Nat.bit c.irqEn 0)) := by
    simp only [Ctrl.toWord, Nat.bit_val]
    congr 1
    omega
  rw [hbits, BitVec.getLsbD_ofNat]
  match j with
  | 0 | 1 => simp [Nat.testBit_bit_succ]
  | k + 2 => simp [Nat.testBit_bit_succ]

/-- CTRL reads back the two implemented bits of what was written (10_state.md R24). -/
theorem Ctrl.toWord_ofWord (d : Word) : (Ctrl.ofWord d).toWord = d &&& 3 := by
  apply BitVec.eq_of_getLsbD_eq
  intro j _
  rw [Ctrl.toWord_getLsbD, BitVec.getLsbD_and]
  match j with
  | 0 | 1 => simp [Ctrl.ofWord]
  | k + 2 =>
    have h3 : (3 : Word).getLsbD (k + 2) = false := (Nat.testBit_two_pow_sub_one 2 (k + 2)).trans (by simp)
    rw [h3, Bool.and_false]
    rfl

/-- Settles O25: STATUS is the binary numeral of its eight bits. -/
theorem statusBitsStandWhereTheSpecSays : Obligations.StatusBitsStandWhereTheSpecSays :=
  fun s j => s.status.toWord_getLsbD j

/-- Settles O24: each bit that `irq` reads is the bit of the word at its place. -/
theorem irqFollowsTheStatusWord : Obligations.IrqFollowsTheStatusWord := by
  refine ⟨fun s => ?_, rfl, fun s c m d => rfl⟩
  simp only [State.regValue, Ctrl.toWord_getLsbD, Status.toWord_getLsbD]
  rfl

/-- The default tables meet the constraints (41_permute.md R133). -/
theorem defaultTables_admissible : Config.defaultTables.admissible = true := by decide +kernel

/-- Settles O12: an empty BUF, POS = 0 and ACC = 0; the ROM has its default tables. -/
theorem resetMeetsTheInvariant : Obligations.ResetMeetsTheInvariant :=
  ⟨Memory.wf_empty 0, Nat.zero_le _, Nat.one_pos, defaultTables_admissible⟩

/-- While BUSY = 0 a guarded write is made (60_exceptions.md R173). -/
theorem State.unlessBusy_idle {s : State} (h : s.status.busy = false) (t : State) : s.unlessBusy t = t :=
  if_neg (by simp [h])

/-- While BUSY = 1 a guarded write is discarded (60_exceptions.md R173). -/
theorem State.unlessBusy_busy {s : State} (h : s.status.busy = true) (t : State) : s.unlessBusy t = s.raiseBusy :=
  if_pos h

/-- Settles O23: with BUSY = 0 each of the three writes is made whole. -/
theorem operandRegistersTakeTheWrite : Obligations.OperandRegistersTakeTheWrite := by
  intro s d hb
  have hwrite {addr : BitVec 12} {r : Reg} {t : State} (ht : target addr.toNat 4 = .reg r)
      (hr : s.regWrite d r = s.unlessBusy t) : s.perform (.write addr .word d) = (t, ⟨.ok, 0⟩) := by
    rw [perform_write_reg ht, hr, State.unlessBusy_idle hb]
  refine ⟨⟨_, hwrite (r := .ctrl) rfl rfl, rfl, ?_, rfl⟩, hwrite (r := .opa) rfl rfl, hwrite (r := .seed) rfl rfl⟩
  rw [readWord, perform_read_value (r := .ctrl) rfl (.inr rfl)]
  exact congrArg (fun v => (_, Reply.mk .ok v)) (Ctrl.toWord_ofWord d)

end Sys2Proof.Machine

/-! PROOFS, 10_state.md R26, R27. The cycle of a write to STATUS or CMD, and the last cycle of a command. -/

namespace Sys2Proof.Machine
open Sys2Proof.Claims

theorem hostTurn_empty {s : State} (h : s.inbox = []) : hostTurn s = .next s := by
  simp only [hostTurn, h]

theorem hostTurn_idle {s : State} {rest : List HostEvent} (h : s.inbox = .idle :: rest) :
    hostTurn s = .next { s with inbox := rest } := by
  simp only [hostTurn, h]

theorem hostTurn_transact {s : State} {t : Transaction} {rest : List HostEvent} (h : s.inbox = .transact t :: rest) :
    hostTurn s = .next (State.answer { s with inbox := rest } t) := by
  simp only [hostTurn, h]

/-- A legal word runs its command (10_state.md R27). -/
theorem runCommand_of_ok {s : State} {i : Instr} (h : decode s.cmdl = .ok i) : runCommand s = exec i s := by
  simp only [runCommand, h]

/-- A rejected word raises IllegalCommand (60_exceptions.md R171). -/
theorem runCommand_of_error {s : State} {r : Reject} (h : decode s.cmdl = .error r) :
    runCommand s = .next (s.raise .illegalCommand) := by
  simp only [runCommand, h]

/-- The last cycle of a command in flight: the command ends on the state after the host's turn (10_state.md R27). -/
theorem step_last {s h : State} (hturn : hostTurn s = .next h) (hs : s.status.busy = true) (hh : h.status.busy = true)
    (hw : h.wait = 0) : step s = runCommand h :=
  (step_of_hostTurn hturn).trans (sequencerTurn_last hs hh hw)

/-- Settles O6: with BUSY = 1 no transaction changes BUSY, the wait or the latch. -/
theorem stepRunsTheDecodedCommand : Obligations.StepRunsTheDecodedCommand := by
  refine ⟨fun s i hb hw hd => ⟨fun hin => ?_, fun rest hin => ?_, fun t rest hin => ?_⟩, fun s nbits w i hin hd => ?_⟩
  · exact (step_last (hostTurn_empty hin) hb hb hw).trans (runCommand_of_ok hd)
  · exact (step_last (hostTurn_idle hin) hb hb hw).trans (runCommand_of_ok hd)
  · obtain ⟨hcmdl, hwait, -⟩ := perform_frame_busy { s with inbox := rest } t hb
    exact (step_last (hostTurn_transact hin) hb (perform_busy { s with inbox := rest } t hb) (hwait.trans hw)).trans
      (runCommand_of_ok ((congrArg decode hcmdl).trans hd))
  · have hempty : (s.withFetchWord nbits w).inbox = [] := by simp only [State.withFetchWord, hin, holdHost]
    have hword : decode (s.withFetchWord nbits w).cmdl = .ok i := by
      unfold decodeTableWord at hd
      split at hd
      next j hj =>
        cases hd
        exact hj
      next => cases hd
    exact (step_last (hostTurn_empty hempty) rfl rfl rfl).trans (runCommand_of_ok hword)

/-- The host's answer to a CMD write while BUSY = 0 (10_state.md R27). -/
theorem answer_cmdWrite {s : State} (h : s.status.busy = false) (c : Word) :
    s.answer (writeWord 0x00C c) = { s.accept c with replies := ⟨.ok, 0⟩ :: s.replies } := by
  rw [State.answer, writeWord, perform_write_reg (r := .cmd) rfl, State.regWrite, State.unlessBusy_idle h]

/-- Settles O22: no command was in flight when the cycle began, so the cycle is the host's turn alone. -/
theorem cmdWriteLatchesTheCommand : Obligations.CmdWriteLatchesTheCommand := by
  refine fun s c => ⟨fun hb rest hin => ⟨Config.latency s.draws c, ?_⟩, fun hb => ?_, ?_⟩
  · rw [step_of_hostTurn (hostTurn_transact hin), sequencerTurn_idle hb,
      answer_cmdWrite (s := { s with inbox := rest }) hb]
    rfl
  · rw [writeWord, perform_write_reg (r := .cmd) rfl, State.regWrite, State.unlessBusy_busy hb]
    rfl
  · exact perform_read_value (r := .cmd) rfl (.inr rfl)

/-- The value is greater than the greatest of the width: CLAMP is set (40_bitfield.md R114). -/
theorem clampFlag_of_lt {v w : Nat} (h : 2 ^ w - 1 < v) (old : Bool) : clampFlag old v w = true := by
  rw [clampFlag, maxField, decide_eq_true h, Bool.or_true]

/-- Every end of a command sets DONE, clears BUSY and leaves ERR_BUSY (60_exceptions.md R170 to R172). -/
theorem runCommand_ends {s t : State} (h : runCommand s = .next t) :
    t.status.busy = false ∧ t.status.done = true ∧ t.status.errBusy = s.status.errBusy := by
  cases hd : decode s.cmdl with
  | error r =>
    rw [runCommand_of_error hd] at h
    cases h
    exact ⟨rfl, rfl, rfl⟩
  | ok i =>
    rw [runCommand_of_ok hd] at h
    obtain ⟨-, rfl⟩ | ⟨-, rfl⟩ := exec_cases h
    · exact ⟨rfl, rfl, rfl⟩
    · exact ⟨rfl, rfl, State.work_errBusy s i⟩

/-- An illegal word sets ERR_ILLEGAL (60_exceptions.md R171). -/
theorem runCommand_errIllegal {s t : State} (h : runCommand s = .next t) (hill : Illegal s.cmdl) :
    t.status.errIllegal = true := by
  obtain ⟨r, hr⟩ := decode_of_illegal hill
  rw [runCommand_of_error hr] at h
  cases h
  rfl

/-- A broken contract sets ERR_CONTRACT (60_exceptions.md R172). -/
theorem runCommand_errContract {s t : State} {i : Instr} (h : runCommand s = .next t) (hd : decode s.cmdl = .ok i)
    (hv : Violates s i) : t.status.errContract = true := by
  rw [runCommand_of_ok hd, exec_of_violates hv] at h
  cases h
  rfl

/-- An append of a value greater than its width sets CLAMP (40_bitfield.md R114). -/
theorem runCommand_clamp {s t : State} {w : Nat} (h : runCommand s = .next t) (hd : decode s.cmdl = .ok (.pkapp w))
    (hv : ¬Violates s (.pkapp w)) (hlt : 2 ^ w - 1 < s.opa.toNat) : t.status.clamp = true := by
  rw [runCommand_of_ok hd, exec_of_not_violates hv] at h
  cases h
  exact clampFlag_of_lt hlt _

/-- The host's turn of a STATUS write (10_state.md R26). -/
theorem hostTurn_statusWrite {s : State} {d : Word} {rest : List HostEvent}
    (h : s.inbox = .transact (writeWord 0x008 d) :: rest) :
    hostTurn s = .next { s.clearSticky d with inbox := rest, replies := ⟨.ok, 0⟩ :: s.replies } := by
  rw [hostTurn_transact h, State.answer, writeWord, perform_write_reg (r := .status) rfl]
  rfl

/-- Settles O20: the host's write comes first, then the command's end on the state it left, which has the command, its
contract and OPA as before. -/
theorem statusWriteClearsAndSetWins : Obligations.StatusWriteClearsAndSetWins := by
  refine fun s d => ⟨perform_write_reg (r := .status) rfl d, fun rest hin hb hw => ?_⟩
  have hstep := step_last (hostTurn_statusWrite hin) hb hb hw
  obtain ⟨t, ht⟩ := runCommand_next { s.clearSticky d with inbox := rest, replies := ⟨.ok, 0⟩ :: s.replies }
  obtain ⟨hbusy, hdone, herrBusy⟩ := runCommand_ends ht
  exact ⟨t, hstep.trans ht, hbusy, hdone, herrBusy, fun hill => runCommand_errIllegal ht hill,
    fun i hd hv => runCommand_errContract ht hd ((violates_congr rfl rfl i).mpr hv),
    fun w hd hv hlt => runCommand_clamp ht hd (mt (violates_congr rfl rfl _).mp hv) hlt⟩

end Sys2Proof.Machine

/-! PROOFS, 20_memory.md R63 to R66, R75. The BUF window, accesses that name nothing, and what the host cannot change while a
command is in flight. -/

namespace Sys2Proof.Machine
open Sys2Proof.Claims

/-! Accesses and their replies. -/

section
variable {s : State} {addr : BitVec 12} {size : Size}

/-- A transaction carries 1, 2 or 4 bytes (20_memory.md R61). -/
theorem Size.bytes_cases (size : Size) : size.bytes = 1 ∨ size.bytes = 2 ∨ size.bytes = 4 := by
  cases size <;> simp [Size.bytes]

/-- A naturally aligned access that begins in the window ends in it: 344 is a whole number of words (20_memory.md R64). -/
theorem aligned_le_window_end {a : Nat} (ha : a < 344) (hal : a % size.bytes = 0) : a + size.bytes ≤ 344 := by
  obtain h | h | h := size.bytes_cases <;> rw [h] at hal ⊢ <;> omega

/-- An access of the window that is not bad is naturally aligned and begins in it (20_memory.md R64, R66). -/
theorem window_of_not_badAccess {n m : Nat} (h : ¬BadAccess n m) (hw : 0x400 ≤ n) :
    n - 0x400 < 344 ∧ (n - 0x400) % m = 0 := by
  unfold BadAccess at h
  omega

/-- An access that is not bad names a register or bytes of the window (20_memory.md R63, R65). -/
theorem target_ne_error {n m : Nat} (h : ¬BadAccess n m) : target n m ≠ .error := by
  by_cases hw : 0x400 ≤ n
  · obtain ⟨ha, hal⟩ := window_of_not_badAccess h hw
    obtain ⟨a, rfl⟩ := Nat.exists_eq_add_of_le hw
    rw [Nat.add_sub_cancel_left] at ha hal
    rw [target_window ha hal]
    exact Target.noConfusion
  · have hreg : m = 4 ∧ n % 4 = 0 := by
      unfold BadAccess at h
      omega
    rw [hreg.1, target_reg (by omega) hreg.2]
    exact Target.noConfusion

/-- A read that names something is answered with OK (20_memory.md R61). -/
theorem perform_read_response (h : target addr.toNat size.bytes ≠ .error) :
    (s.perform (.read addr size)).2.response = .ok := by
  rw [State.perform, State.portRead]
  split
  next he => exact absurd he h
  next r _ => split <;> rfl
  next a _ => split <;> rfl

/-- A write that names something is answered with OK (20_memory.md R61). -/
theorem perform_write_reply (h : target addr.toNat size.bytes ≠ .error) (d : Word) :
    (s.perform (.write addr size d)).2 = ⟨.ok, 0⟩ := by
  rw [State.perform, State.portWrite]
  split
  next he => exact absurd he h
  next r _ => rfl
  next a _ => rfl

/-- A read of the window while BUSY = 0 (20_memory.md R63). -/
theorem perform_read_window {a : Nat} (ht : target addr.toNat size.bytes = .window a) (hb : s.status.busy = false) :
    s.perform (.read addr size) = (s, ⟨.ok, BitVec.ofNat 32 (s.buf.memRead a size.bytes)⟩) := by
  simp only [State.perform, State.portRead, ht, hb]
  rfl

/-- A write of the window is guarded by BUSY (20_memory.md R63, R70). -/
theorem perform_write_window {a : Nat} (ht : target addr.toNat size.bytes = .window a) (d : Word) :
    s.perform (.write addr size d) =
      (s.unlessBusy { s with buf := s.buf.memWrite a size.bytes d.toNat }, ⟨.ok, 0⟩) := by
  simp only [State.perform, State.portWrite, ht]
  rfl

/-- The datum of a window read holds all the bytes read (20_memory.md R61, R63). -/
theorem toNat_ofNat_memRead (m : Memory) (a : Nat) (size : Size) :
    (BitVec.ofNat 32 (m.memRead a size.bytes)).toNat = m.memRead a size.bytes := by
  have hfit : 256 ^ size.bytes ≤ 2 ^ 32 := by cases size <;> decide
  exact (BitVec.toNat_ofNat _ _).trans (Nat.mod_eq_of_lt ((m.memRead_lt _ _).trans_le hfit))

/-- The 12-bit host address of byte `a` of BUF (20_memory.md R63). -/
theorem toNat_windowAddr {a : Nat} (ha : a < 344) : (BitVec.ofNat 12 (0x400 + a)).toNat = 0x400 + a := by
  rw [BitVec.toNat_ofNat]
  omega

end

/-- Settles O14: a bad access names nothing; any other names a register or an aligned place of the window. -/
theorem badAccessGetsErrorAndChangesNothing : Obligations.BadAccessGetsErrorAndChangesNothing := by
  refine fun s addr size d => ⟨fun hbad => perform_error (target_error hbad) d, fun hgood => ?_⟩
  have ht := target_ne_error hgood
  refine ⟨perform_read_response ht, perform_write_reply ht d, fun hw => ?_⟩
  obtain ⟨ha, hal⟩ := window_of_not_badAccess hgood hw
  have := aligned_le_window_end ha hal
  omega

/-- Settles O15: a window access is a little-endian read or write of BUF at its offset. -/
theorem windowIsLittleEndian : Obligations.WindowIsLittleEndian := by
  intro s a size d hb ha hal
  have ht : target (BitVec.ofNat 12 (0x400 + a)).toNat size.bytes = .window a := by
    rw [toNat_windowAddr ha, target_window ha hal]
  have hend := aligned_le_window_end ha hal
  refine ⟨⟨_, perform_read_window ht hb, ?_, fun k hk => ?_⟩, s.buf.memWrite a size.bytes d.toNat, ?_, fun k hk => ?_,
    fun x hx => ?_⟩
  · rw [toNat_ofNat_memRead]
    exact s.buf.memRead_lt _ _
  · rw [toNat_ofNat_memRead]
    exact s.buf.memRead_byte a hk
  · rw [perform_write_window ht, State.unlessBusy_idle hb]
  · rw [Memory.get_memWrite, if_pos ⟨by omega, by omega, show a + k < 344 by omega⟩, Nat.add_sub_cancel_left]
    exact BitVec.toNat_ofNat _ _
  · rw [Memory.get_memWrite, if_neg (by omega)]

/-! A command in flight. -/

/-- In `t` the command of `s` is in flight, as many cycles from its end, and all that a command reads is as in `s`
(20_memory.md R75). -/
structure SameFlight (s t : State) : Prop where
  busy : t.status.busy = true
  wait : t.wait = s.wait
  cmdl : t.cmdl = s.cmdl
  ctrl : t.ctrl = s.ctrl
  opa : t.opa = s.opa
  seed : t.seed = s.seed
  acc : t.acc = s.acc
  pos : t.pos = s.pos
  buf : t.buf = s.buf
  rom : t.rom = s.rom

/-- A transaction while a command is in flight changes nothing that the command reads (20_memory.md R70, R75). -/
theorem answer_sameFlight {s : State} (hb : s.status.busy = true) (tr : Transaction) (rest : List HostEvent) :
    SameFlight s (State.answer { s with inbox := rest } tr) := by
  obtain ⟨hcmdl, hwait, hctrl, hopa, hseed, hbuf, hacc, hpos, hrom⟩ := perform_frame_busy { s with inbox := rest } tr hb
  exact ⟨perform_busy { s with inbox := rest } tr hb, hwait, hcmdl, hctrl, hopa, hseed, hacc, hpos, hbuf, hrom⟩

/-- Nor does any other turn of the host but the reset event (20_memory.md R75, 70_reset_and_hazards.md R190). -/
theorem hostTurn_sameFlight {s h : State} (hb : s.status.busy = true) (hreset : s.inbox.head? ≠ some .reset)
    (ht : hostTurn s = .next h) : SameFlight s h := by
  obtain ⟨rfl, -⟩ | ⟨rfl, -⟩ | ⟨tr, -, rfl⟩ | ⟨hr, -⟩ := hostTurn_cases ht
  · exact ⟨hb, rfl, rfl, rfl, rfl, rfl, rfl, rfl, rfl, rfl⟩
  · exact ⟨hb, rfl, rfl, rfl, rfl, rfl, rfl, rfl, rfl, rfl⟩
  · exact answer_sameFlight hb tr _
  · exact absurd hr hreset

/-- A cycle before the last is the host's turn and one cycle less to wait (70_reset_and_hazards.md R203). -/
theorem step_wait {s t : State} (hb : s.status.busy = true) (hw : s.wait ≠ 0) (hreset : s.inbox.head? ≠ some .reset)
    (hs : step s = .next t) : ∃ h, SameFlight s h ∧ t = h.elapse := by
  obtain ⟨h, hturn, -⟩ := step_cases hs
  have hsame := hostTurn_sameFlight hb hreset hturn
  have hwait : h.wait ≠ 0 := hsame.wait ▸ hw
  rw [step_of_hostTurn hturn, sequencerTurn_wait hb hsame.busy hwait] at hs
  cases hs
  exact ⟨h, hsame, rfl⟩

/-- Settles O8: the host's turn keeps all that the command reads, and a waiting cycle then only counts. -/
theorem commandReadsTheAcceptedState : Obligations.CommandReadsTheAcceptedState := by
  refine ⟨fun s t hb hw hreset hs => ?_, fun s tr rest hb hin => ?_⟩
  · obtain ⟨h, ⟨hbusy, hwait, hcmdl, hctrl, hopa, hseed, hacc, hpos, hbuf, hrom⟩, rfl⟩ := step_wait hb hw hreset hs
    exact ⟨hbusy, congrArg (· - 1) hwait, hcmdl, hctrl, hopa, hseed, hacc, hpos, hbuf, hrom⟩
  · obtain ⟨hbusy, hwait, hcmdl, hctrl, hopa, hseed, hacc, hpos, hbuf, hrom⟩ := answer_sameFlight hb tr rest
    exact ⟨hbusy, hwait, hcmdl, hctrl, hopa, hseed, hacc, hpos, hbuf, hrom,
      fun hw => step_last (hostTurn_transact hin) hb hbusy (hwait.trans hw)⟩

end Sys2Proof.Machine

/-! PROOFS, 30_encoding.md R82, R92 to R97. What each row fixes in a word, and the round trips of decoder and encoder. -/

namespace Sys2Proof
open Sys2Proof.Claims

/-- The command's row of the opcode map (30_encoding.md R92). -/
def Instr.row : Instr → OpcodeRow
  | .nop => ⟨"NOP", 0xFFFFFFFF, 0x00000000⟩
  | .getbit _ _ => ⟨"GETBIT", 0x00FE00FF, 0x00000001⟩
  | .setbit _ _ _ => ⟨"SETBIT", 0x00FC00FF, 0x00000002⟩
  | .pkclr => ⟨"PKCLR", 0xFFFFFFFF, 0x00000003⟩
  | .pkapp _ => ⟨"PKAPP", 0xFFFFC0FF, 0x00000004⟩
  | .unpk _ _ _ => ⟨"UNPK", 0xFFC080FF, 0x00000005⟩
  | .perm _ _ => ⟨"PERM", 0xFFFFC0FF, 0x00000010⟩
  | .crypt _ _ => ⟨"CRYPT", 0xFC0000FF, 0x00000020⟩
  | .decrypt => ⟨"DECRYPT", 0xFFFFFFFF, 0x00000021⟩
  | .encrypt => ⟨"ENCRYPT", 0xFFFFFFFF, 0x00000022⟩
  | .decif => ⟨"DECIF", 0xFFFFFFFF, 0x00000023⟩
  | .csum _ => ⟨"CSUM", 0xFFFE00FF, 0x00000030⟩
  | .csumst _ => ⟨"CSUMST", 0xFFFE00FF, 0x00020030⟩
  | .csumvf _ => ⟨"CSUMVF", 0xFFFE00FF, 0x00040030⟩

/-- The fields that the command's format fixes, as `(hi, lo, value)`: OP, the reserved fields, and MODE in format K
(30_encoding.md R82, R89). -/
def Instr.fixedFields : Instr → List (Nat × Nat × Nat)
  | .nop => [(7, 0, 0x00), (31, 8, 0)]
  | .getbit _ _ => [(7, 0, 0x01), (23, 17, 0)]
  | .setbit _ _ _ => [(7, 0, 0x02), (23, 18, 0)]
  | .pkclr => [(7, 0, 0x03), (31, 8, 0)]
  | .pkapp _ => [(7, 0, 0x04), (31, 14, 0)]
  | .unpk _ _ _ => [(7, 0, 0x05), (31, 22, 0), (15, 15, 0)]
  | .perm _ _ => [(7, 0, 0x10), (31, 14, 0)]
  | .crypt _ _ => [(7, 0, 0x20), (31, 26, 0)]
  | .decrypt => [(7, 0, 0x21), (31, 8, 0)]
  | .encrypt => [(7, 0, 0x22), (31, 8, 0)]
  | .decif => [(7, 0, 0x23), (31, 8, 0)]
  | .csum _ => [(7, 0, 0x30), (31, 19, 0), (18, 17, 0)]
  | .csumst _ => [(7, 0, 0x30), (31, 19, 0), (18, 17, 1)]
  | .csumvf _ => [(7, 0, 0x30), (31, 19, 0), (18, 17, 2)]

/-- The word has the fields that the command's format fixes. -/
def InRow (c : Word) (i : Instr) : Prop := i.fixedFields.Forall fun f => fld c f.1 f.2.1 = f.2.2

/-- The command of `i`'s row with the operands that the word's fields hold (30_encoding.md R82, R90). -/
def Instr.ofFields (c : Word) : Instr → Instr
  | .nop => .nop
  | .getbit _ _ => .getbit (fld c 16 8) (fld c 31 24)
  | .setbit _ _ _ => .setbit (fld c 16 8) (fld c 31 24) (decide (fld c 17 17 = 1))
  | .pkclr => .pkclr
  | .pkapp _ => .pkapp (fld c 13 8)
  | .unpk _ _ _ => .unpk (fld c 13 8) (fld c 21 16) (srcOf (fld c 14 14))
  | .perm _ _ => .perm (fld c 12 8) (rowSelOf (fld c 13 13))
  | .crypt _ _ => .crypt (fld c 16 8) (fld c 25 17)
  | .decrypt => .decrypt
  | .encrypt => .encrypt
  | .decif => .decif
  | .csum _ => .csum (fld c 16 8)
  | .csumst _ => .csumst (fld c 16 8)
  | .csumvf _ => .csumvf (fld c 16 8)

theorem Instr.ofFields_mnemonic (c : Word) (i : Instr) : (i.ofFields c).mnemonic = i.mnemonic := by
  cases i <;> rfl

/-! The opcode map and the fixed fields say the same (30_encoding.md R92). -/

theorem Instr.row_mnemonic (i : Instr) : i.row.mnemonic = i.mnemonic := by cases i <;> rfl

/-- The opcode map lists the rows of the fourteen commands. -/
theorem exists_row_of_mem {r : OpcodeRow} (hr : r ∈ opcodeMap) : ∃ i : Instr, i.row = r := by
  have hrows : opcodeMap = [Instr.nop, .getbit 0 0, .setbit 0 0 false, .pkclr, .pkapp 0, .unpk 0 0 .opa, .perm 0 .direct,
      .crypt 0 0, .decrypt, .encrypt, .decif, .csum 0, .csumst 0, .csumvf 0].map Instr.row := rfl
  obtain ⟨i, -, hi⟩ := List.mem_map.mp (hrows ▸ hr)
  exact ⟨i, hi⟩

/-- A mnemonic names one row. -/
theorem eq_of_mnemonic_eq : ∀ r ∈ opcodeMap, ∀ r' ∈ opcodeMap, r.mnemonic = r'.mnemonic → r = r' := by decide

/-- The mask covers every fixed field, and the match value has its value. -/
theorem Instr.row_fixedFields (i : Instr) : ∀ f ∈ i.fixedFields,
    fld i.row.mask f.1 f.2.1 = 2 ^ (f.1 + 1 - f.2.1) - 1 ∧ fld i.row.value f.1 f.2.1 = f.2.2 := by
  cases i <;> simp [fixedFields, row, fld]

/-- A word that matches the row has the row's fixed fields. -/
theorem inRow_of_match {c : Word} {i : Instr} (h : c &&& i.row.mask = i.row.value) : InRow c i :=
  List.forall_iff_forall_mem.mpr fun f hf =>
    have ⟨hmask, hvalue⟩ := i.row_fixedFields f hf
    (fld_of_mask h f.1 f.2.1 hmask).trans hvalue

/-! The decoder (30_encoding.md R81, R95). -/

/-- A word with the fixed fields of a row decodes to the row's command, its operands read from the fields. -/
theorem decode_of_inRow {c : Word} {i : Instr} (h : InRow c i) : decode c = .ok (i.ofFields c) := by
  cases i <;> simp only [InRow, Instr.fixedFields, List.Forall] at h <;>
    simp [decode, decodeChecksum, reservedZero, Instr.ofFields, h]

/-- The rule of each row, as the statements about single commands say it. -/
theorem encoded_row (i : Instr) : Encoded i.row.mask i.row.value i.ofFields := fun _ h => decode_of_inRow (inRow_of_match h)

/-- A word that matches a row decodes to a command of that row. -/
theorem decode_of_match {c : Word} {r : OpcodeRow} (hr : r ∈ opcodeMap) (h : c &&& r.mask = r.value) :
    ∃ i, decode c = .ok i ∧ i.mnemonic = r.mnemonic := by
  obtain ⟨i, rfl⟩ := exists_row_of_mem hr
  exact ⟨i.ofFields c, encoded_row i c h, (i.ofFields_mnemonic c).trans i.row_mnemonic.symm⟩

/-- What decodes was read from the fields of a word that has its row's fixed fields. -/
theorem exists_inRow_of_decode {c : Word} {i : Instr} (h : decode c = .ok i) : ∃ j, InRow c j ∧ i = j.ofFields c := by
  obtain ⟨r, hr, -, hmatch⟩ := matchesRow_of_decode h
  obtain ⟨j, rfl⟩ := exists_row_of_mem hr
  exact ⟨j, inRow_of_match hmatch, Except.ok.inj (h.symm.trans (encoded_row j c hmatch))⟩

/-! The encoder (30_encoding.md R82). -/

/-- A well-formed command's number is below 2^32 and ends in its OP (30_encoding.md R80, R81). -/
theorem encodeFits (i : Instr) : Laws.EncodeFits.Statement i := by
  cases i with
  | nop => exact Laws.EncodeFits.nop
  | getbit addr bit => exact Laws.EncodeFits.getbit addr bit
  | setbit addr bit val => exact Laws.EncodeFits.setbit addr bit val
  | pkclr => exact Laws.EncodeFits.pkclr
  | pkapp w => exact Laws.EncodeFits.pkapp w
  | unpk off w src => exact Laws.EncodeFits.unpk off w src
  | perm idx sel => exact Laws.EncodeFits.perm idx sel
  | crypt start stop => exact Laws.EncodeFits.crypt start stop
  | decrypt => exact Laws.EncodeFits.decrypt
  | encrypt => exact Laws.EncodeFits.encrypt
  | decif => exact Laws.EncodeFits.decif
  | csum stop => exact Laws.EncodeFits.csum stop
  | csumst stop => exact Laws.EncodeFits.csumst stop
  | csumvf stop => exact Laws.EncodeFits.csumvf stop

/-- A field of an encoded command. -/
theorem fld_encode {i : Instr} (h : i.wf = true) (hi lo : Nat) :
    fld (encode i) hi lo = encodeNat i / 2 ^ lo % 2 ^ (hi + 1 - lo) := fld_ofNat (encodeFits i h).1 hi lo

/-! SRC, INVSEL and VAL are one bit wide (30_encoding.md R85 to R87). -/

theorem fld_bit_lt (c : Word) (k : Nat) : fld c k k < 2 := by simpa using fld_lt c k k

theorem Src.bit_lt (x : Src) : x.bit < 2 := by cases x <;> decide

theorem RowSel.bit_lt (x : RowSel) : x.bit < 2 := by cases x <;> decide

theorem bit_srcOf {b : Nat} (h : b < 2) : (srcOf b).bit = b := by interval_cases b <;> rfl

theorem bit_rowSelOf {b : Nat} (h : b < 2) : (rowSelOf b).bit = b := by interval_cases b <;> rfl

theorem toNat_decide_eq_one {b : Nat} (h : b < 2) : (decide (b = 1)).toNat = b := by interval_cases b <;> rfl

/-! The two round trips (30_encoding.md R92). -/

/-- The operands of a well-formed command stay in their own fields, so the fixed fields keep their values. -/
theorem inRow_encode {i : Instr} (h : i.wf = true) : InRow (encode i) i := by
  simp only [InRow, fld_encode h]
  cases i <;> simp only [Instr.fixedFields, List.Forall, encodeNat] <;>
    simp only [Instr.wf, Bool.and_eq_true, decide_eq_true_eq] at h
  case setbit addr bit val =>
    have := Bool.toNat_lt val
    omega
  case unpk off w src =>
    have := src.bit_lt
    omega
  case perm idx sel =>
    have := sel.bit_lt
    omega
  all_goals omega

/-- Each operand of a well-formed command is read back from its field. -/
theorem ofFields_encode {i : Instr} (h : i.wf = true) : i.ofFields (encode i) = i := by
  cases i <;> simp only [Instr.ofFields, fld_encode h, encodeNat] <;>
    simp only [Instr.wf, Bool.and_eq_true, decide_eq_true_eq] at h
  case getbit addr bit => congr <;> omega
  case setbit addr bit val => cases val <;> simp <;> omega
  case unpk off w src =>
    have := src.bit_lt
    rw [Instr.unpk.injEq]
    exact ⟨by omega, by omega, (congrArg srcOf (by omega)).trans (srcOf_bit src)⟩
  case perm idx sel =>
    have := sel.bit_lt
    rw [Instr.perm.injEq]
    exact ⟨by omega, (congrArg rowSelOf (by omega)).trans (rowSelOf_bit sel)⟩
  case crypt start stop => congr <;> omega
  case pkapp | csum | csumst | csumvf => congr; omega

/-- A field's value fits the field. -/
theorem wf_ofFields (c : Word) (i : Instr) : (i.ofFields c).wf = true := by
  cases i <;> simp [Instr.ofFields, Instr.wf, fld, Nat.mod_lt]

/-- The fixed fields and the operands' fields are the whole word. -/
theorem encode_ofFields {c : Word} {i : Instr} (h : InRow c i) : encode (i.ofFields c) = c := by
  apply BitVec.eq_of_toNat_eq
  have := c.isLt
  cases i <;> simp only [InRow, Instr.fixedFields, List.Forall] at h <;>
    simp only [encode, Instr.ofFields, encodeNat, BitVec.toNat_ofNat, bit_srcOf (fld_bit_lt c 14),
      bit_rowSelOf (fld_bit_lt c 13), toNat_decide_eq_one (fld_bit_lt c 17)] <;>
    simp only [fld] at h ⊢ <;> omega

/-! The obligations. -/

/-- Settles O1: the encoded word has its row's fixed fields, and every operand in its own field. -/
theorem decodeOfEncodeIsTheCommand : Obligations.DecodeOfEncodeIsTheCommand := fun i hwf => by
  rw [decode_of_inRow (inRow_encode hwf), ofFields_encode hwf]

/-- Settles O2: what decodes was read from the word's fields, and these with the row's fixed fields give the word back. -/
theorem encodeOfDecodeIsTheWord : Obligations.EncodeOfDecodeIsTheWord := fun c i h => by
  obtain ⟨j, hrow, rfl⟩ := exists_inRow_of_decode h
  exact ⟨wf_ofFields c j, encode_ofFields hrow⟩

/-- Settles O3: a word decodes to at most one command, and a mnemonic names one row. -/
theorem wordIsTheCommandOfItsRow : Obligations.WordIsTheCommandOfItsRow := by
  refine ⟨fun c r hr => ⟨decode_of_match hr, fun ⟨i, hd, hname⟩ => ?_⟩, fun c r hr r' hr' h h' => ?_⟩
  · obtain ⟨q, hq, hqname, hmatch⟩ := matchesRow_of_decode hd
    rwa [eq_of_mnemonic_eq r hr q hq (hname.symm.trans hqname.symm)]
  · obtain ⟨i, hd, hname⟩ := decode_of_match hr h
    obtain ⟨i', hd', hname'⟩ := decode_of_match hr' h'
    obtain rfl : i = i' := Except.ok.inj (hd.symm.trans hd')
    exact eq_of_mnemonic_eq r hr r' hr' (hname.symm.trans hname')

/-- Settles O5: the words of the decoder vectors, run. -/
theorem wordsOfTheSpecDecode : Obligations.WordsOfTheSpecDecode := by
  unfold Obligations.WordsOfTheSpecDecode
  decide

end Sys2Proof

/-! PROOFS, 30_encoding.md R94 to R96, 60_exceptions.md R171. How an illegal word's command ends. -/

namespace Sys2Proof.Machine
open Sys2Proof.Claims

/-- An illegal word's command ends with IllegalCommand (60_exceptions.md R171). -/
theorem runCommand_of_illegal {s : State} (h : Illegal s.cmdl) : runCommand s = .next (illegalFailed s) := by
  obtain ⟨_, hr⟩ := decode_of_illegal h
  exact runCommand_of_error hr

/-- Settles O4: an illegal word is rejected, and with an idle host the last cycle is only the command's end. -/
theorem illegalWordRecordsErrIllegalOnly : Obligations.IllegalWordRecordsErrIllegalOnly := fun _ h =>
  ⟨runCommand_of_illegal h, fun hb hw hin => (step_last (hostTurn_empty hin) hb hb hw).trans (runCommand_of_illegal h)⟩

end Sys2Proof.Machine

/-! PROOFS, 40_bitfield.md R110 to R118. One bit of a byte, the append of a saturated field, the extraction of a field,
and what a pack sequence leaves in ACC. -/

namespace Sys2Proof.Machine
open Sys2Proof.Claims

/-! One bit of a byte (R111, R112). -/

/-- `get_bit` gives the bit as a number (40_bitfield.md R111). -/
theorem getBit_toNat (v : Byte) (k : Nat) : (getBit v k).toNat = (v.getLsbD k).toNat := by
  have hlt : v.toNat / 2 ^ k % 2 < 2 ^ 32 := (Nat.mod_lt _ two_pos).trans (by decide)
  rw [getBit, BitVec.toNat_ofNat, Nat.mod_eq_of_lt hlt, ← BitVec.testBit_toNat, Nat.toNat_testBit]

/-- `set_bit` writes one bit and keeps the other seven (40_bitfield.md R112). -/
theorem setBit_getLsbD (v : Byte) (k : Nat) (b : Bool) {j : Nat} (hj : j < 8) :
    (setBit v k b).getLsbD j = if j = k then b else v.getLsbD j := by
  have hbit : (BitVec.ofNat 8 (2 ^ k)).getLsbD j = decide (k = j) := by
    rw [BitVec.getLsbD_ofNat, Nat.testBit_two_pow, decide_eq_true hj, Bool.true_and]
  have hval : (BitVec.ofNat 8 (b.toNat * 2 ^ k)).getLsbD j = (b && decide (k = j)) := by
    cases b with
    | false => simp
    | true => simpa using hbit
  have hones : (0xFF : Byte).getLsbD j = true := (BitVec.getLsbD_allOnes (v := 8)).trans (decide_eq_true hj)
  simp only [setBit, BitVec.getLsbD_or, BitVec.getLsbD_and, BitVec.getLsbD_xor, hbit, hval, hones]
  by_cases hjk : j = k
  · simp [hjk]
  · simp [hjk, Ne.symm hjk]

theorem len_le_partyLen (s : State) : s.len ≤ Config.partyLen := by
  unfold State.len
  split <;> decide

/-- SETBIT inside its contract writes the byte at ADDR (40_bitfield.md R112). -/
theorem work_setbit_get {s : State} {addr : Nat} (ha : addr < s.len) (bit : Nat) (val : Bool) (x : Nat) :
    (s.work (.setbit addr bit val)).buf.get x =
      if x = addr then setBit (s.buf.get addr) (bitIndex bit) val else s.buf.get x := by
  have hin : addr < Config.partyLen := ha.trans_le (len_le_partyLen s)
  rw [State.work, Memory.get_set]
  simp only [hin, and_true]

/-! What PKAPP and UNPK do inside their contracts (R114, R115). -/

section
variable {s : State} {w : Nat}

theorem exec_pkapp (hw : w ≠ 0) (hfit : s.pos.toNat + w ≤ 32) : exec (.pkapp w) s = .next (s.append w).complete :=
  exec_of_not_violates ((appendOk_iff_not s w).mp ((appendOk_iff s w).mpr ⟨hw, hfit⟩))

theorem exec_unpk {off : Nat} {src : Src} (hw : w ≠ 0) (hfit : off + w ≤ 32) :
    exec (.unpk off w src) s = .next (State.complete { s with result := unpackField (s.source src) off w }) :=
  exec_of_not_violates ((fieldOk_iff_not off w).mp ((fieldOk_iff off w).mpr ⟨hw, hfit⟩))

/-- ACC after an append, as a shift of the saturated value (40_bitfield.md R114). -/
theorem append_acc (s : State) (w : Nat) :
    (s.append w).acc = s.acc ||| (BitVec.ofNat 32 (min s.opa.toNat (2 ^ w - 1)) <<< s.pos.toNat) := by
  have hshift : BitVec.ofNat 32 (saturate s.opa.toNat w * 2 ^ s.pos.toNat) =
      BitVec.ofNat 32 (saturate s.opa.toNat w) <<< s.pos.toNat := by
    apply BitVec.eq_of_toNat_eq
    rw [BitVec.toNat_shiftLeft, BitVec.toNat_ofNat, BitVec.toNat_ofNat, Nat.shiftLeft_eq, Nat.mod_mul_mod]
  rw [State.append, hshift, saturate_eq_min]

/-- An append that fits loses no bit of the saturated value (40_bitfield.md R114). -/
theorem append_acc_toNat (hfit : s.pos.toNat + w ≤ 32) :
    (s.append w).acc.toNat = s.acc.toNat ||| (min s.opa.toNat (2 ^ w - 1) <<< s.pos.toNat) := by
  have hlt : saturate s.opa.toNat w * 2 ^ s.pos.toNat < 2 ^ 32 := calc
    _ < 2 ^ w * 2 ^ s.pos.toNat := Nat.mul_lt_mul_of_pos_right (saturate_lt _ _) (Nat.two_pow_pos _)
    _ = 2 ^ (s.pos.toNat + w) := by rw [Nat.mul_comm, Nat.pow_add]
    _ ≤ 2 ^ 32 := Nat.pow_le_pow_right two_pos hfit
  rw [State.append, BitVec.toNat_or, BitVec.toNat_ofNat, Nat.mod_eq_of_lt hlt, saturate_eq_min, Nat.shiftLeft_eq]

/-- The bits that UNPK extracts (40_bitfield.md R115). -/
theorem unpackField_toNat (x : Word) (off w : Nat) : (unpackField x off w).toNat = x.toNat / 2 ^ off % 2 ^ w :=
  (BitVec.toNat_ofNat _ _).trans
    (Nat.mod_eq_of_lt (((Nat.mod_le _ _).trans (Nat.div_le_self _ _)).trans_lt x.isLt))

/-- UNPK's extraction as shift and mask (40_bitfield.md R115). -/
theorem unpackField_eq_shift_mask (x : Word) (off : Nat) (hw : w ≤ 32) :
    unpackField x off w = (x >>> off) &&& BitVec.ofNat 32 (2 ^ w - 1) := by
  have hmask : 2 ^ w - 1 < 2 ^ 32 := Nat.sub_one_lt_of_le (Nat.two_pow_pos w) (Nat.pow_le_pow_right two_pos hw)
  apply BitVec.eq_of_toNat_eq
  rw [unpackField_toNat, BitVec.toNat_and, BitVec.toNat_ushiftRight, BitVec.toNat_ofNat, Nat.mod_eq_of_lt hmask,
    Nat.and_two_pow_sub_one_eq_mod, Nat.shiftRight_eq_div_pow]

end

/-! Pack sequences (R116, R118). -/

/-- `t` is `s` with the elements appended: what ACC, POS and CLAMP hold (40_bitfield.md R116). -/
structure Packed (elems : List (Word × Nat)) (s t : State) : Prop where
  acc : t.acc.toNat = s.acc.toNat ||| packOr s.pos.toNat elems
  pos : t.pos.toNat = s.pos.toNat + totalWidth elems
  clamp : t.status.clamp = (s.status.clamp || elems.any fun e => decide (2 ^ e.2 - 1 < e.1.toNat))

theorem totalWidth_cons (v : Word) (w : Nat) (rest : List (Word × Nat)) :
    totalWidth ((v, w) :: rest) = w + totalWidth rest := rfl

theorem totalWidth_append (l l' : List (Word × Nat)) : totalWidth (l ++ l') = totalWidth l + totalWidth l' := by
  simp [totalWidth]

/-- One element appended, then the rest (40_bitfield.md R116). -/
theorem Packed.cons {s t : State} {v : Word} {w : Nat} {rest : List (Word × Nat)} (hfit : s.pos.toNat + w ≤ 32)
    (h : Packed rest (State.append { s with opa := v } w) t) : Packed ((v, w) :: rest) s t := by
  obtain ⟨hacc, hpos, hclamp⟩ := h
  have hnew : (State.append { s with opa := v } w).pos.toNat = s.pos.toNat + w := append_pos_toNat hfit
  refine ⟨?_, ?_, ?_⟩
  · rw [hacc, hnew, append_acc_toNat (s := { s with opa := v }) hfit, packOr, Nat.or_assoc]
  · rw [hpos, hnew, totalWidth_cons, Nat.add_assoc]
  · rw [hclamp, State.append_status, List.any_cons, ← Bool.or_assoc]
    rfl

/-- Elements that fit above POS are appended one by one (40_bitfield.md R116). -/
theorem appendAll_packed (elems : List (Word × Nat)) (s : State) (hw : ∀ e ∈ elems, 1 ≤ e.2)
    (hfit : s.pos.toNat + totalWidth elems ≤ 32) : ∃ t, appendAll elems s = .next t ∧ Packed elems s t := by
  induction elems generalizing s with
  | nil => exact ⟨s, rfl, (Nat.or_zero _).symm, rfl, (Bool.or_false _).symm⟩
  | cons e rest ih =>
    obtain ⟨v, w⟩ := e
    obtain ⟨hw0, hrest⟩ := List.forall_mem_cons.mp hw
    rw [totalWidth_cons, ← Nat.add_assoc] at hfit
    have hfitw : s.pos.toNat + w ≤ 32 := (Nat.le_add_right _ _).trans hfit
    have hnew : (State.append { s with opa := v } w).pos.toNat = s.pos.toNat + w := append_pos_toNat hfitw
    obtain ⟨t, ht, hp⟩ := ih (State.append { s with opa := v } w).complete hrest (hnew.symm ▸ hfit)
    refine ⟨t, ?_, .cons hfitw ⟨hp.acc, hp.pos, hp.clamp⟩⟩
    rw [appendAll, exec_pkapp (s := { s with opa := v }) (Nat.ne_of_gt hw0) hfitw]
    exact ht

/-- PKCLR and elements of at most 32 bits (40_bitfield.md R113, R116). -/
theorem packAll_packed {elems : List (Word × Nat)} (s : State) (hw : ∀ e ∈ elems, 1 ≤ e.2)
    (hfit : totalWidth elems ≤ 32) :
    ∃ t, packAll elems s = .next t ∧ t.acc.toNat = packOr 0 elems ∧ t.pos.toNat = totalWidth elems ∧
      t.status.clamp = (s.status.clamp || elems.any fun e => decide (2 ^ e.2 - 1 < e.1.toNat)) := by
  obtain ⟨t, ht, hacc, hpos, hclamp⟩ := appendAll_packed elems (s.work .pkclr).complete hw
    ((Nat.zero_add _).trans_le hfit)
  exact ⟨t, ht, hacc.trans (Nat.zero_or _), hpos.trans (Nat.zero_add _), hclamp⟩

/-- The pack from position `p` on is the pack from 0 on, shifted. -/
theorem packOr_eq_shiftLeft (p : Nat) (elems : List (Word × Nat)) : packOr p elems = packOr 0 elems <<< p := by
  induction elems generalizing p with
  | nil => exact (Nat.zero_shiftLeft p).symm
  | cons e rest ih =>
    obtain ⟨v, w⟩ := e
    rw [packOr, packOr, ih (p + w), ih (0 + w), Nat.shiftLeft_or_distrib, Nat.zero_add, Nat.shiftLeft_zero,
      Nat.add_comm p w, Nat.shiftLeft_add]

theorem min_two_pow_sub_one_lt (v w : Nat) : min v (2 ^ w - 1) < 2 ^ w := saturate_eq_min v w ▸ saturate_lt v w

/-- The first element's bits and the others' do not overlap, so the OR is a sum. -/
theorem packOr_zero_cons (v : Word) (w : Nat) (rest : List (Word × Nat)) :
    packOr 0 ((v, w) :: rest) = packOr 0 rest * 2 ^ w + min v.toNat (2 ^ w - 1) := by
  rw [packOr, packOr_eq_shiftLeft, Nat.zero_add, Nat.shiftLeft_zero, Nat.or_comm,
    ← Nat.shiftLeft_add_eq_or_of_lt (min_two_pow_sub_one_lt _ _), Nat.shiftLeft_eq]

/-- The bits of a pack from `w` on are the pack of the elements after the first. -/
theorem packOr_zero_cons_div (v : Word) (w : Nat) (rest : List (Word × Nat)) :
    packOr 0 ((v, w) :: rest) / 2 ^ w = packOr 0 rest := by
  rw [packOr_zero_cons, Nat.add_comm, Nat.add_mul_div_right _ _ (Nat.two_pow_pos w),
    Nat.div_eq_of_lt (min_two_pow_sub_one_lt _ _), Nat.zero_add]

/-- Each element stands clamped at its own position (40_bitfield.md R118). -/
theorem packOr_field (before after : List (Word × Nat)) (v : Word) (w : Nat) :
    packOr 0 (before ++ (v, w) :: after) / 2 ^ totalWidth before % 2 ^ w = min v.toNat (2 ^ w - 1) := by
  induction before with
  | nil =>
    rw [List.nil_append, packOr_zero_cons, show totalWidth [] = 0 from rfl, Nat.pow_zero, Nat.div_one,
      Nat.mul_add_mod', Nat.mod_eq_of_lt (min_two_pow_sub_one_lt _ _)]
  | cons e rest ih =>
    obtain ⟨v', w'⟩ := e
    rw [List.cons_append, totalWidth_cons, Nat.pow_add, ← Nat.div_div_eq_div_mul, packOr_zero_cons_div, ih]

/-! The obligations. -/

/-- Settles O32: RESULT is the bit as a number. -/
theorem getbitReadsOneBit : Obligations.GetbitReadsOneBit :=
  ⟨encoded_row (.getbit 0 0), fun _ addr bit =>
    ⟨fun ha => ⟨_, exec_of_not_violates (i := .getbit addr bit) ha.not_ge, getBit_toNat _ _⟩,
      fun ha => exec_of_violates (i := .getbit addr bit) ha⟩⟩

/-- Settles O33: read after write of the byte, whose bits `setBit_getLsbD` gives. -/
theorem setbitWritesOneBit : Obligations.SetbitWritesOneBit := by
  refine ⟨encoded_row (.setbit 0 0 false), fun s addr bit val => ⟨fun ha => ?_,
    fun ha => exec_of_violates (i := .setbit addr bit val) ha⟩⟩
  refine ⟨_, exec_of_not_violates (i := .setbit addr bit val) ha.not_ge, fun j hj => ?_, fun x hx => ?_⟩
  · rw [work_setbit_get ha, if_pos rfl]
    exact setBit_getLsbD _ _ _ hj
  · rw [work_setbit_get ha, if_neg hx]

/-- Settles O35: the append's ACC is the shift of the saturated value, and POS + W fits 6 bits. -/
theorem pkappAppendsSaturated : Obligations.PkappAppendsSaturated := by
  refine ⟨encoded_row (.pkapp 0), fun s w => ⟨fun hw hfit => ⟨(s.append w).pos, append_pos_toNat hfit, ?_⟩,
    fun hv => exec_of_violates (i := .pkapp w) hv⟩⟩
  rw [exec_pkapp hw hfit, ← append_acc]
  rfl

/-- Settles O36: the extraction is a shift and a mask of at most 32 bits. -/
theorem unpkExtractsTheField : Obligations.UnpkExtractsTheField := by
  refine ⟨encoded_row (.unpk 0 0 .opa), fun s off w src => ⟨fun hw hfit => ?_,
    fun hv => exec_of_violates (i := .unpk off w src) hv⟩⟩
  rw [exec_unpk hw hfit, unpackField_eq_shift_mask _ _ ((Nat.le_add_left _ _).trans hfit)]
  cases src <;> rfl

/-- Settles O37: ACC has no bit at POS or above, so the OR with the shifted value is a sum. -/
theorem clampingKeepsTheNeighbours : Obligations.ClampingKeepsTheNeighbours := by
  intro s w ⟨_, _, hacc, _⟩ hw hfit
  have hsum : (s.append w).acc.toNat = min s.opa.toNat (2 ^ w - 1) * 2 ^ s.pos.toNat + s.acc.toNat := by
    rw [append_acc_toNat hfit, Nat.or_comm, ← Nat.shiftLeft_add_eq_or_of_lt hacc, Nat.shiftLeft_eq]
  refine ⟨_, exec_pkapp hw hfit, ?_, ?_, append_pos_toNat hfit⟩
  · rw [State.complete_acc, hsum, Nat.mul_add_mod', Nat.mod_eq_of_lt hacc]
  · rw [State.complete_acc, hsum, Nat.add_comm, Nat.add_mul_div_right _ _ (Nat.two_pow_pos _), Nat.div_eq_of_lt hacc,
      Nat.zero_add]

/-- Settles O38: induction on the elements; one more append past bit 31 breaks PKAPP's contract. -/
theorem packSequenceComputesPack : Obligations.PackSequenceComputesPack := by
  intro s elems hw hfit
  obtain ⟨t, ht, hacc, hpos, hclamp⟩ := packAll_packed s hw hfit
  exact ⟨t, ht, hacc, hpos, hclamp, fun v w hover =>
    ⟨_, exec_of_violates (i := .pkapp w) (.inr (hpos.symm ▸ hover)), rfl, rfl, rfl⟩⟩

/-- Settles O39: UNPK.ACC reads the element's own bits of the pack. -/
theorem packUnpackRoundTrip : Obligations.PackUnpackRoundTrip := by
  intro s before after v w hw hfit
  obtain ⟨t, ht, hacc, -, -⟩ := packAll_packed s hw hfit
  have hw0 : w ≠ 0 := Nat.ne_of_gt (hw (v, w) (by simp))
  rw [totalWidth_append, totalWidth_cons] at hfit
  refine ⟨t, _, ht, exec_unpk hw0 (by omega), ?_⟩
  rw [State.complete_result, State.source, unpackField_toNat, hacc, packOr_field]

/-- Settles O31: NOP's work is nothing. -/
theorem nopOnlyCompletes : Obligations.NopOnlyCompletes :=
  ⟨encoded_row .nop, fun _ => exec_of_not_violates id⟩

/-- Settles O34: PKCLR's work is the two writes. -/
theorem pkclrClearsAccAndPos : Obligations.PkclrClearsAccAndPos :=
  ⟨encoded_row .pkclr, fun _ => exec_of_not_violates id⟩

end Sys2Proof.Machine

/-! PROOFS, 41_permute.md R130 to R136. PERM and PERM.INV move sub-blocks by a row of FWD; inverse rows undo each other
and equal rows act alike. -/

namespace Sys2Proof.Machine
open Sys2Proof.Claims

/-- PERM has no contract to break: it permutes by its row and completes (41_permute.md R134). -/
theorem exec_perm (idx : Nat) (sel : RowSel) (s : State) :
    exec (.perm idx sel) s =
      .next { s with buf := permute s.rom (permRow s.rom idx sel) s.buf, status := finished s.status } := by
  rw [exec_of_not_violates (i := .perm idx sel) id, State.work, State.complete, finished]

/-! Constraint (d) of an admissible pair (R133); `admissible_row` is constraint (c). -/

/-- INV entry `24 + i` is entry `i`, and FWD row `24 + i` is row `i` (41_permute.md R133). -/
theorem admissible_duplicate {t : Config.Tables} (h : t.admissible = true) {i : Nat} (hi : i < 8) :
    t.invRow (24 + i) = t.invRow i ∧ ∀ blk < 4, t.row (24 + i) blk = t.row i blk := by
  simp only [Config.Tables.admissible, Bool.and_eq_true, List.all_eq_true, List.mem_range, beq_iff_eq] at h
  exact h.2 i hi

/-- The rows that PERM and PERM.INV take for IDX = `24 + i` and for IDX = `i` have the same entries. -/
theorem row_permRow_duplicate {t : Config.Tables} (h : t.admissible = true) {i blk : Nat} (hi : i < 8) (hb : blk < 4)
    (sel : RowSel) : t.row (permRow t (24 + i) sel) blk = t.row (permRow t i sel) blk := by
  obtain ⟨hinv, hfwd⟩ := admissible_duplicate h hi
  cases sel with
  | direct => exact hfwd blk hb
  | inverse => exact congrArg (t.row · blk) hinv

/-! When a permuted buffer reads as a given one (R130). -/

section
variable {t : Config.Tables} {r q : Nat}

/-- `Permute(r)` of `m` reads as `m'` if each sub-block of `m'` is the one of `m` that row `r` names. -/
theorem permute_sameBytes {m m' : Memory}
    (hblocks : ∀ blk < 4, ∀ k < 80, m.get (8 + 80 * t.row r blk + k) = m'.get (8 + 80 * blk + k))
    (hrest : ∀ x, x < 8 ∨ 328 ≤ x → m.get x = m'.get x) : SameBytes (permute t r m) m' := by
  intro x
  by_cases hx : x < 8 ∨ 328 ≤ x
  · rw [permute_get_outside t r m hx, hrest x hx]
  · obtain ⟨blk, hb, k, hk, rfl⟩ := block_cases (x := x) (by omega) (by omega)
    rw [permute_get_block t r m hb hk, hblocks blk hb k hk]

/-- A row that undoes row `r` restores the buffer: sub-block `blk` comes from where row `r` put it. -/
theorem permute_permute_sameBytes (h : ∀ blk < 4, t.row r (t.row q blk) = blk) (m : Memory) :
    SameBytes (permute t q (permute t r m)) m := by
  refine permute_sameBytes (fun blk hb k hk => ?_) (fun x hx => permute_get_outside t r m hx)
  rw [permute_get_block t r m (row_lt t q blk) hk, h blk hb]

/-- Rows with the same entries move the same sub-blocks. -/
theorem permute_sameBytes_of_row_eq (h : ∀ blk < 4, t.row r blk = t.row q blk) (m : Memory) :
    SameBytes (permute t r m) (permute t q m) := by
  refine permute_sameBytes (fun blk hb k hk => ?_) (fun x hx => (permute_get_outside t q m hx).symm)
  rw [permute_get_block t q m hb hk, h blk hb]

/-- Row `INV[i]` undoes row `i` (41_permute.md R133, R135). -/
theorem permute_invRow_permute (h : t.admissible = true) {i : Nat} (hi : i < 32) (m : Memory) :
    SameBytes (permute t (t.invRow i) (permute t i m)) m :=
  permute_permute_sameBytes (fun _ hb => (admissible_row h hi hb).1) m

/-- Row `i` undoes row `INV[i]` (41_permute.md R133, R135). -/
theorem permute_permute_invRow (h : t.admissible = true) {i : Nat} (hi : i < 32) (m : Memory) :
    SameBytes (permute t i (permute t (t.invRow i) m)) m :=
  permute_permute_sameBytes (fun _ hb => (admissible_row h hi hb).2) m

end

/-! The obligations. -/

/-- Settles O40: PERM's work is `Permute` of its row, read byte by byte. -/
theorem permMovesTheSubBlocks : Obligations.PermMovesTheSubBlocks := by
  refine ⟨encoded_row (.perm 0 .direct), fun s idx sel =>
    ⟨permute s.rom (permRow s.rom idx sel) s.buf, exec_perm idx sel s, fun blk hb k hk => ?_,
      fun x hx => permute_get_outside _ _ _ hx⟩⟩
  rw [permute_get_block _ _ _ hb hk]
  cases sel <;> rfl

/-- Settles O41: PERM keeps the ROM, so the second command permutes by the inverse row of the same tables. -/
theorem permAndPermInvUndoEachOther : Obligations.PermAndPermInvUndoEachOther := by
  intro s i h hi
  refine ⟨_, _, _, _, exec_perm i .direct s, exec_perm i .inverse _, ?_,
    exec_perm i .inverse s, exec_perm i .direct _, ?_⟩
  · simpa only [permRow] using permute_invRow_permute h hi s.buf
  · simpa only [permRow] using permute_permute_invRow h hi s.buf

/-- Settles O42: the two rows have the same entries. -/
theorem duplicateRowsActAlike : Obligations.DuplicateRowsActAlike := by
  intro s i sel h h24 h32
  obtain ⟨j, rfl⟩ := Nat.exists_eq_add_of_le h24
  rw [Nat.add_sub_cancel_left]
  exact ⟨_, _, exec_perm _ _ _, exec_perm _ _ _,
    permute_sameBytes_of_row_eq (fun _ hb => row_permRow_duplicate h (by omega) hb sel) s.buf⟩

/-- Settles O43: constraint (c) in both orders; the tables at reset are the default. -/
theorem admissibleTablesGiveInversePermutations : Obligations.AdmissibleTablesGiveInversePermutations :=
  ⟨defaultTables_admissible, fun _ _ m h hi => ⟨permute_invRow_permute h hi m, permute_permute_invRow h hi m⟩⟩

end Sys2Proof.Machine

/-! PROOFS, 42_cipher.md R140 to R151. The keystream in bytes, the seed and the guard words in the container, what CRYPT
and the container commands write, and which of them undo each other. -/

namespace Sys2Proof.Machine
open Sys2Proof.Claims

/-! The LCG and its key bytes (R140, R141). -/

/-- The key bytes of pair `j` are bits 23:16 and 31:24 of the state after `j + 1` steps (42_cipher.md R141). -/
theorem keyAt_pair (k : Word) (j : Nat) :
    keyAt k (2 * j) = BitVec.ofNat 8 ((lcgStep^[j + 1] k).toNat / 2 ^ 16) ∧
    keyAt k (2 * j + 1) = BitVec.ofNat 8 ((lcgStep^[j + 1] k).toNat / 2 ^ 24) := by
  rw [keyAt, if_pos (by omega), keyAt, if_neg (by omega), show 2 * j / 2 = j by omega,
    show (2 * j + 1) / 2 = j by omega, ← Nat.shiftRight_eq_div_pow, ← Nat.shiftRight_eq_div_pow]
  exact ⟨rfl, rfl⟩

/-- The same key twice is no key (42_cipher.md R147). -/
theorem xor_key_key (v key : Byte) : v ^^^ key ^^^ key = v := by
  rw [BitVec.xor_assoc, BitVec.xor_self, BitVec.xor_zero]

/-! The words of the container (R144, R146). -/

/-- The seed is the little-endian word at bytes 0 to 3 (20_memory.md R62). -/
theorem seed_eq (m : Memory) : m.seed = BitVec.ofNat 32 (seedOf m) := by
  have h : m.memRead Config.seedOfs 4 = seedOf m := by
    simp only [Memory.memRead, Config.seedOfs, seedOf, Nat.zero_add, Nat.reduceAdd]
    omega
  rw [Memory.seed, h]

/-- The shuffle index from the seed's number (42_cipher.md R144). -/
theorem shuffleIndex_ofNat (n : Nat) : shuffleIndex (BitVec.ofNat 32 n) = n / 8192 % 32 := by
  rw [shuffleIndex, BitVec.toNat_ofNat]
  simp only [Config.shufShift, Config.shufRows]
  omega

theorem seedOf_congr {m m' : Memory} (h : ∀ x < 8, m.get x = m'.get x) : seedOf m = seedOf m' := by
  rw [seedOf, seedOf, h 0 (by decide), h 1 (by decide), h 2 (by decide), h 3 (by decide)]

theorem memRead_two (m : Memory) (a : Nat) : m.memRead a 2 = u16 m a := rfl

/-- DECIF's test is that both guard words are nonzero (42_cipher.md R146). -/
theorem guardsNonzero_iff (m : Memory) :
    guardsNonzero m = true ↔ u16 m Config.guardOfsA ≠ 0 ∧ u16 m Config.guardOfsB ≠ 0 := by
  rw [guardsNonzero, Bool.and_eq_true, decide_eq_true_eq, decide_eq_true_eq, memRead_two, memRead_two]

/-- Where a guard word may stand (00_scope.md R7). -/
theorem guardSlot_bounds (k : Fin 40) :
    (168 + 2 * k.val) % 2 = 0 ∧ 168 ≤ 168 + 2 * k.val ∧ 168 + 2 * k.val ≤ 246 := by omega

/-! CRYPT (R142, R147). -/

section
variable {s : State} {a b : Nat} (hab : a < b) (hb : b ≤ s.len) (heven : (b - a) % 2 = 0)
include hab hb heven

/-- CRYPT inside its contract encrypts the range and completes (42_cipher.md R142). -/
theorem exec_crypt : exec (.crypt a b) s = .next { s with
    buf := (cryptRange s.seed a b s.buf).1, lcg := lcgStep^[(b - a) / 2] s.seed, status := finished s.status } := by
  have hok : ¬Violates s (.crypt a b) := (rangeOk_iff_not s a b).mp ((rangeOk_iff s a b).mpr ⟨hab, hb, heven⟩)
  rw [exec_of_not_violates hok, State.work, State.complete, finished, cryptRange_state]

/-- Each byte of CRYPT's range is XORed with its keystream byte (42_cipher.md R141). -/
theorem crypt_get_inside {x : Nat} (hax : a ≤ x) (hxb : x < b) :
    (cryptRange s.seed a b s.buf).1.get x = s.buf.get x ^^^ keyAt s.seed (x - a) := by
  rw [cryptRange_get _ _ _ hab.le (hb.trans (len_le_partyLen s)) heven, if_pos ⟨hax, hxb⟩]

/-- CRYPT writes no byte outside its range (42_cipher.md R142). -/
theorem crypt_get_outside {x : Nat} (hx : x < a ∨ b ≤ x) : (cryptRange s.seed a b s.buf).1.get x = s.buf.get x := by
  rw [cryptRange_get _ _ _ hab.le (hb.trans (len_le_partyLen s)) heven, if_neg (by omega)]

end

/-! `CryptPKM` at the LEN of a state (R143). -/

section
variable (s : State) (k : Word) (m : Memory)

theorem cryptPkm_get_crypted (x : Nat) : (cryptPkm s.len k m).1.get x = cryptedByte s.len k m x :=
  cryptPkm_get (len_cases s) k m x

theorem cryptPkm_crypted_state : (cryptPkm s.len k m).2 = cryptedState s.len k := cryptPkm_state (len_cases s) k m

/-- Byte `j` of the blocks region gets keystream byte `j` (42_cipher.md R143). -/
theorem cryptPkm_get_block {j : Nat} (hj : j < 320) :
    (cryptPkm s.len k m).1.get (8 + j) = m.get (8 + j) ^^^ keyAt k j := by
  rw [cryptPkm_get_crypted, cryptedByte, if_pos (by omega), Nat.add_sub_cancel_left]

/-- `CryptPKM` starts behind the header (42_cipher.md R151). -/
theorem cryptPkm_get_header {x : Nat} (hx : x < 8) : (cryptPkm s.len k m).1.get x = m.get x := by
  rw [cryptPkm_get_crypted, cryptedByte, if_neg (by omega), if_neg (by omega)]

/-- A crypted byte depends on the byte at its own position only (42_cipher.md R143). -/
theorem cryptedByte_congr {len : Nat} {m' : Memory} {x : Nat} (h : m.get x = m'.get x) :
    cryptedByte len k m x = cryptedByte len k m' x := by
  rw [cryptedByte, cryptedByte, h]

theorem cryptPkm_congr {m m' : Memory} (h : SameBytes m m') :
    SameBytes (cryptPkm s.len k m).1 (cryptPkm s.len k m').1 := fun x => by
  rw [cryptPkm_get_crypted, cryptPkm_get_crypted, cryptedByte_congr k m (h x)]

/-- `CryptPKM` undoes itself (42_cipher.md R148, R149). -/
theorem cryptPkm_cryptPkm : SameBytes (cryptPkm s.len k (cryptPkm s.len k m).1).1 m := by
  intro x
  rw [cryptPkm_get_crypted, cryptedByte, cryptPkm_get_crypted, cryptedByte]
  split
  · exact xor_key_key _ _
  · split
    · exact xor_key_key _ _
    · rfl

end

/-- `Permute` of equal bytes gives equal bytes (41_permute.md R130). -/
theorem permute_congr {m m' : Memory} (h : SameBytes m m') (t : Config.Tables) (r : Nat) :
    SameBytes (permute t r m) (permute t r m') :=
  permute_sameBytes (fun _ hb _ hk => (h _).trans (permute_get_block t r m' hb hk).symm)
    (fun x hx => (h x).trans (permute_get_outside t r m' hx).symm)

theorem sameBytes_trans {m m' m'' : Memory} (h : SameBytes m m') (h' : SameBytes m' m'') : SameBytes m m'' :=
  fun x => (h x).trans (h' x)

/-! What the container commands write (R144 to R146). -/

section
variable (s : State)

theorem decryptArray_buf : s.decryptArray.buf =
    permute s.rom (shuffleIndex s.buf.seed) (cryptPkm s.len s.buf.seed s.buf).1 := rfl

theorem encryptArray_buf : s.encryptArray.buf =
    (cryptPkm s.len s.buf.seed (permute s.rom (s.rom.invRow (shuffleIndex s.buf.seed)) s.buf)).1 := rfl

theorem decryptArray_lcg : s.decryptArray.lcg = cryptedState s.len s.buf.seed := cryptPkm_crypted_state s _ _

theorem encryptArray_lcg : s.encryptArray.lcg = cryptedState s.len s.buf.seed := cryptPkm_crypted_state s _ _

theorem exec_decrypt : exec .decrypt s = .next s.decryptArray.complete := exec_of_not_violates (i := .decrypt) id

theorem exec_encrypt : exec .encrypt s = .next s.encryptArray.complete := exec_of_not_violates (i := .encrypt) id

/-- DECIF with both guard words nonzero decrypts and sets DECRYPTED (42_cipher.md R146). -/
theorem exec_decif_of_guards_nonzero
    (h : u16 s.buf Config.guardOfsA ≠ 0 ∧ u16 s.buf Config.guardOfsB ≠ 0) :
    exec .decif s = .next (s.decryptArray.setDecrypted true).complete := by
  rw [exec_of_not_violates (i := .decif) id, State.work, if_pos ((guardsNonzero_iff _).mpr h)]

/-- DECIF with a guard word 0 only clears DECRYPTED (42_cipher.md R146). -/
theorem exec_decif_of_guard_zero
    (h : u16 s.buf Config.guardOfsA = 0 ∨ u16 s.buf Config.guardOfsB = 0) :
    exec .decif s = .next { s with status := { finished s.status with decrypted := false } } := by
  have hg : ¬guardsNonzero s.buf = true := by
    rw [guardsNonzero_iff]
    omega
  rw [exec_of_not_violates (i := .decif) id, State.work, if_neg hg]
  rfl

/-- DECRYPT's work, whatever STATUS the command leaves (42_cipher.md R144). -/
theorem decryptArray_decrypted (st : Status) : Decrypted s { s.decryptArray with status := st } st := by
  rw [Decrypted, ← seed_eq, ← decryptArray_lcg]
  refine ⟨rfl, fun blk hb k hk => ?_, fun x hx => ?_⟩
  · exact (permute_get_block _ _ _ hb hk).trans (cryptPkm_get_crypted s _ _ _)
  · exact (permute_get_outside _ _ _ hx).trans (cryptPkm_get_crypted s _ _ _)

theorem encryptArray_get_block {blk k : Nat} (hb : blk < 4) (hk : k < 80) :
    s.encryptArray.buf.get (8 + 80 * blk + k) =
      s.buf.get (8 + 80 * s.rom.row (s.rom.invRow (shuffleIndex s.buf.seed)) blk + k) ^^^
        keyAt s.buf.seed (80 * blk + k) := by
  rw [encryptArray_buf, Nat.add_assoc, cryptPkm_get_block s _ _ (by omega), ← Nat.add_assoc,
    permute_get_block _ _ _ hb hk]

theorem encryptArray_get_outside {x : Nat} (hx : x < 8 ∨ 328 ≤ x) :
    s.encryptArray.buf.get x = cryptedByte s.len s.buf.seed s.buf x :=
  (cryptPkm_get_crypted s _ _ x).trans (cryptedByte_congr _ _ (permute_get_outside _ _ _ hx))

/-! The header (R151), and with it the seed, stays. -/

theorem decryptArray_get_header {x : Nat} (hx : x < 8) : s.decryptArray.buf.get x = s.buf.get x :=
  (permute_get_outside _ _ _ (.inl hx)).trans (cryptPkm_get_header s _ _ hx)

theorem encryptArray_get_header {x : Nat} (hx : x < 8) : s.encryptArray.buf.get x = s.buf.get x :=
  (cryptPkm_get_header s _ _ hx).trans (permute_get_outside _ _ _ (.inl hx))

theorem decryptArray_buf_seed : s.decryptArray.buf.seed = s.buf.seed :=
  Memory.seed_congr fun _ hk => decryptArray_get_header s (by omega)

theorem encryptArray_buf_seed : s.encryptArray.buf.seed = s.buf.seed :=
  Memory.seed_congr fun _ hk => encryptArray_get_header s (by omega)

end

section
variable {s : State} {i : Instr} (hi : i.mnemonic ∈ ["DECRYPT", "ENCRYPT", "DECIF", "PERM"])
include hi

/-- No container command has a contract to break (60_exceptions.md R172). -/
theorem not_violates_of_container : ¬Violates s i := by
  cases i with
  | decrypt | encrypt | decif | perm => exact id
  | _ => exact absurd hi (by simp [Instr.mnemonic])

/-- No container command writes the header (42_cipher.md R151). -/
theorem work_get_header {x : Nat} (hx : x < 8) : (s.work i).buf.get x = s.buf.get x := by
  cases i with
  | decrypt => exact decryptArray_get_header s hx
  | encrypt => exact encryptArray_get_header s hx
  | decif =>
    obtain he | he := work_decif_cases s <;> rw [he]
    · exact decryptArray_get_header s hx
    · rfl
  | perm idx sel =>
    simp only [State.work]
    exact permute_get_outside _ _ _ (.inl hx)
  | _ => exact absurd hi (by simp [Instr.mnemonic])

end

/-! The obligations. -/

/-- Settles O44: both operations of the step are modulo 2^32. -/
theorem lcgStepIsTheSourceFormula : Obligations.LcgStepIsTheSourceFormula := by
  intro x
  rw [lcgStep, BitVec.toNat_add, BitVec.toNat_mul, Nat.mod_add_mod]
  rfl

/-- Settles O45: byte `2j` and byte `2j + 1` of the range get the two key bytes of pair `j`. -/
theorem cryptXorsTheKeystream : Obligations.CryptXorsTheKeystream := by
  refine ⟨encoded_row (.crypt 0 0), fun s a b => ⟨fun hab hb heven => ?_,
    fun hv => exec_of_violates (i := .crypt a b) hv⟩⟩
  refine ⟨_, exec_crypt hab hb heven, fun j hj => ?_, fun x hx => crypt_get_outside hab hb heven hx⟩
  obtain ⟨hlow, hhigh⟩ := keyAt_pair s.seed j
  rw [crypt_get_inside hab hb heven (by omega) (by omega), crypt_get_inside hab hb heven (by omega) (by omega),
    show a + 2 * j - a = 2 * j by omega, show a + 2 * j + 1 - a = 2 * j + 1 by omega, hlow, hhigh]
  exact ⟨rfl, rfl⟩

/-- Settles O46: the same SEED gives each byte of the range the same key a second time. -/
theorem cryptTwiceRestores : Obligations.CryptTwiceRestores := by
  intro s t u a b hab hb heven hexec hseed hbu hagree
  rw [exec_crypt hab hb heven] at hexec
  cases hexec
  refine ⟨_, exec_crypt hab hbu heven, congrArg (lcgStep^[(b - a) / 2]) hseed, fun x hax hxb => ?_⟩
  calc (cryptRange u.seed a b u.buf).1.get x
      = u.buf.get x ^^^ keyAt u.seed (x - a) := crypt_get_inside hab hbu heven hax hxb
    _ = (cryptRange s.seed a b s.buf).1.get x ^^^ keyAt s.seed (x - a) := by rw [hagree x hax hxb, hseed]
    _ = s.buf.get x ^^^ keyAt s.seed (x - a) ^^^ keyAt s.seed (x - a) := by
      rw [crypt_get_inside hab hb heven hax hxb]
    _ = s.buf.get x := xor_key_key _ _

/-- Settles O47: DECRYPT completes after its work. -/
theorem decryptUnXorsThenPermutes : Obligations.DecryptUnXorsThenPermutes :=
  ⟨encoded_row .decrypt, fun s => ⟨_, exec_decrypt s, decryptArray_decrypted s _⟩⟩

/-- Settles O48: byte `k` of sub-block `blk` stands at byte `80 * blk + k` of the blocks region when it is XORed. -/
theorem encryptPermutesThenXors : Obligations.EncryptPermutesThenXors := by
  refine ⟨encoded_row .encrypt, fun s => ⟨s.encryptArray.buf, ?_, fun blk hb k hk => ?_, fun x hx => ?_⟩⟩
  · rw [exec_encrypt, ← seed_eq, ← encryptArray_lcg]
    rfl
  · rw [encryptArray_get_block s hb hk, seed_eq, shuffleIndex_ofNat]
  · rw [encryptArray_get_outside s hx, seed_eq]

/-- Settles O49: the seed stands, the two XORs cancel, and row `i` undoes row `INV[i]`. -/
theorem decryptUndoesEncrypt : Obligations.DecryptUndoesEncrypt := by
  intro s h
  refine ⟨_, _, exec_encrypt s, exec_decrypt _, ?_⟩
  have hbuf : s.encryptArray.complete.decryptArray.buf = permute s.rom (shuffleIndex s.buf.seed)
      (cryptPkm s.len s.buf.seed s.encryptArray.buf).1 := by
    rw [← encryptArray_buf_seed]
    rfl
  rw [State.complete_buf, hbuf, encryptArray_buf]
  exact sameBytes_trans (permute_congr (cryptPkm_cryptPkm s _ _) _ _) (permute_permute_invRow h (shuffleIndex_lt _) _)

/-- Settles O50: the seed stands, row `INV[i]` undoes row `i`, and the two XORs cancel. -/
theorem encryptUndoesDecrypt : Obligations.EncryptUndoesDecrypt := by
  intro s h
  refine ⟨_, _, exec_decrypt s, exec_encrypt _, ?_⟩
  have hbuf : s.decryptArray.complete.encryptArray.buf = (cryptPkm s.len s.buf.seed
      (permute s.rom (s.rom.invRow (shuffleIndex s.buf.seed)) s.decryptArray.buf)).1 := by
    rw [← decryptArray_buf_seed]
    rfl
  rw [State.complete_buf, hbuf, decryptArray_buf]
  exact sameBytes_trans (cryptPkm_congr s _ (permute_invRow_permute h (shuffleIndex_lt _) _)) (cryptPkm_cryptPkm s _ _)

/-- Settles O51: DECIF's two cases, and the slots of the two guard words. -/
theorem decifDecryptsWhenBothGuardsAreNonzero : Obligations.DecifDecryptsWhenBothGuardsAreNonzero :=
  ⟨encoded_row .decif, guardSlot_bounds _, guardSlot_bounds _, fun s =>
    ⟨fun h => ⟨_, exec_decif_of_guards_nonzero s h, decryptArray_decrypted s _⟩, exec_decif_of_guard_zero s⟩⟩

/-- Settles O52: the second DECIF meets a guard word 0. -/
theorem decifTwiceIsStableWhenAGuardIsZero : Obligations.DecifTwiceIsStableWhenAGuardIsZero :=
  fun _ t _ h => exec_decif_of_guard_zero t h

/-- Settles O53: the work of the four commands leaves bytes 0 to 7, the seed among them. -/
theorem containerCommandsKeepTheHeader : Obligations.ContainerCommandsKeepTheHeader := by
  intro s i hi
  have hheader : ∀ x < 8, (s.work i).buf.get x = s.buf.get x := fun _ hx => work_get_header hi hx
  exact ⟨_, exec_of_not_violates (not_violates_of_container hi), hheader, seedOf_congr hheader⟩

end Sys2Proof.Machine

/-! PROOFS, 43_checksum.md R160 to R166. The checksum as a sum over word indices, what the three checksum commands do inside
their contract, and how the sum answers to a stored checksum, to one changed byte and to PERM. -/

namespace Sys2Proof.Machine
open Sys2Proof.Claims

/-! The checksum as a sum over word indices (R160). -/

theorem checksum_toNat_sum (m : Memory) (e : Nat) :
    (checksum m e).toNat = (∑ j ∈ Finset.range ((e - 8) / 2), u16 m (8 + 2 * j)) % 65536 :=
  checksum_toNat m e

/-- The checksum field as a number (10_state.md R41). -/
theorem storedCsum_toNat (m : Memory) : m.storedCsum.toNat = u16 m 6 :=
  (BitVec.toNat_ofNat _ 16).trans (Nat.mod_eq_of_lt (m.memRead_lt 2 6))

/-! The buffer that CSUMST leaves (R162). -/

/-- `m` with `Checksum(e)` in its checksum field. -/
def csumStored (m : Memory) (e : Nat) : Memory := m.memWrite Config.csumOfs 2 (checksum m e).toNat

section
variable (m : Memory) (e : Nat)

theorem csumStored_get_low : ((csumStored m e).get 6).toNat = (checksum m e).toNat % 256 := by
  rw [csumStored, Memory.get_memWrite, if_pos (by decide), BitVec.toNat_ofNat, Config.csumOfs, Nat.sub_self, Nat.pow_zero,
    Nat.div_one]

theorem csumStored_get_high : ((csumStored m e).get 7).toNat = (checksum m e).toNat / 256 := by
  rw [csumStored, Memory.get_memWrite, if_pos (by decide), BitVec.toNat_ofNat]
  exact Nat.mod_eq_of_lt (Nat.div_lt_of_lt_mul (checksum m e).isLt)

theorem csumStored_get_other {x : Nat} (h6 : x ≠ 6) (h7 : x ≠ 7) : (csumStored m e).get x = m.get x := by
  rw [csumStored, Memory.get_memWrite, if_neg (by rw [Config.csumOfs]; omega)]

/-- The checksum field is never summed (43_checksum.md R160, R164). -/
theorem checksum_csumStored (e' : Nat) : checksum (csumStored m e) e' = checksum m e' :=
  checksum_congr fun _ h8 _ => csumStored_get_other m e (by omega) (by omega)

theorem csumStored_storedCsum : (csumStored m e).storedCsum = checksum m e := by
  rw [Memory.storedCsum, csumStored, Memory.memRead_memWrite _ _ (by decide),
    Nat.mod_eq_of_lt (show _ < 256 ^ 2 from (checksum m e).isLt), BitVec.ofNat_toNat, BitVec.setWidth_eq]

/-- What CSUMST stores depends on the checksum only (43_checksum.md R162). -/
theorem csumStored_get_congr {m' : Memory} (h : checksum m' e = checksum m e) :
    (csumStored m' e).get 6 = (csumStored m e).get 6 ∧ (csumStored m' e).get 7 = (csumStored m e).get 7 := by
  constructor <;> apply BitVec.eq_of_toNat_eq
  · rw [csumStored_get_low, csumStored_get_low, h]
  · rw [csumStored_get_high, csumStored_get_high, h]

end

/-! The three commands inside their contract (R161 to R163). -/

section
variable {s : State} {e : Nat} (h8 : 8 ≤ e) (hlen : e ≤ s.len) (heven : e % 2 = 0)
include h8 hlen heven

theorem sumEnd_in_contract : ¬(e < 8 ∨ s.len < e ∨ e % 2 = 1) := by omega

theorem exec_csum : exec (.csum e) s = .next { s with csum := checksum s.buf e, status := finished s.status } :=
  exec_of_not_violates (i := .csum e) (sumEnd_in_contract h8 hlen heven)

theorem exec_csumst : exec (.csumst e) s =
    .next { s with csum := checksum s.buf e, buf := csumStored s.buf e, status := finished s.status } :=
  exec_of_not_violates (i := .csumst e) (sumEnd_in_contract h8 hlen heven)

/-- What a CSUMST that was run has written (43_checksum.md R162). -/
theorem csum_buf_of_exec_csumst {t : State} (h : exec (.csumst e) s = .next t) :
    t.csum = checksum s.buf e ∧ t.buf = csumStored s.buf e := by
  rw [exec_csumst h8 hlen heven] at h
  cases h
  exact ⟨rfl, rfl⟩

theorem exec_csumvf : exec (.csumvf e) s = .next { s with
    csum := checksum s.buf e
    status := { finished s.status with mismatch := mismatchFlag (checksum s.buf e) s.buf.storedCsum } } :=
  exec_of_not_violates (i := .csumvf e) (sumEnd_in_contract h8 hlen heven)

end

/-- MISMATCH compares the two checksums as numbers (43_checksum.md R163). -/
theorem mismatchFlag_storedCsum (v : BitVec 16) (m : Memory) :
    mismatchFlag v m.storedCsum = decide (v.toNat ≠ u16 m 6) := by
  rw [mismatchFlag, ← storedCsum_toNat]
  exact decide_eq_decide.mpr BitVec.toNat_inj.not.symm

/-- END = 328 lies within LEN at either FORM (10_state.md R42). -/
theorem stored_le_len (s : State) : 328 ≤ s.len := by
  obtain h | h := len_cases s <;> omega

/-! One changed word, and one changed byte (R165). -/

/-- Two buffers that differ in one summed word only have checksums that differ in that term only. -/
theorem checksum_of_one_word {m m' : Memory} {e j : Nat} (hj : j < (e - 8) / 2)
    (h : ∀ i < (e - 8) / 2, i ≠ j → u16 m' (8 + 2 * i) = u16 m (8 + 2 * i)) :
    ∃ rest, (checksum m e).toNat = (u16 m (8 + 2 * j) + rest) % 65536 ∧
      (checksum m' e).toNat = (u16 m' (8 + 2 * j) + rest) % 65536 := by
  have hmem := Finset.mem_range.mpr hj
  refine ⟨∑ i ∈ (Finset.range ((e - 8) / 2)).erase j, u16 m (8 + 2 * i), ?_, ?_⟩
  · rw [checksum_toNat_sum, Finset.add_sum_erase _ (fun i => u16 m (8 + 2 * i)) hmem]
  · have hrest : ∑ i ∈ (Finset.range ((e - 8) / 2)).erase j, u16 m (8 + 2 * i) =
        ∑ i ∈ (Finset.range ((e - 8) / 2)).erase j, u16 m' (8 + 2 * i) :=
      Finset.sum_congr rfl fun i hi =>
        (h i (Finset.mem_range.mp (Finset.mem_of_mem_erase hi)) (Finset.ne_of_mem_erase hi)).symm
    rw [checksum_toNat_sum, hrest, Finset.add_sum_erase _ (fun i => u16 m' (8 + 2 * i)) hmem]

/-- A change of one byte changes its word by the change of the byte, or by 256 times that. -/
theorem u16_sub_of_one_byte {m m' : Memory} {x : Nat}
    (h : ∀ y, y / 2 = x / 2 → y ≠ x → m'.get y = m.get y) :
    (u16 m' (2 * (x / 2)) : Int) - u16 m (2 * (x / 2)) =
      (((m'.get x).toNat : Int) - (m.get x).toNat) * (if x % 2 = 0 then 1 else 256) := by
  obtain hx | hx := Nat.mod_two_eq_zero_or_one x
  · have ha : 2 * (x / 2) = x := by omega
    rw [if_pos hx, ha, u16, u16, h (x + 1) (by omega) (by omega)]
    omega
  · have ha : 2 * (x / 2) + 1 = x := by omega
    rw [if_neg (by omega), u16, u16, ha, h (2 * (x / 2)) (by omega) (by omega)]
    omega

/-- The checksum moves by the change of its one changed byte, or by 256 times that, modulo 2^16 (43_checksum.md R165). -/
theorem checksum_sub_of_one_byte {m m' : Memory} {e x : Nat} (heven : e % 2 = 0) (h8 : 8 ≤ x) (hx : x < e)
    (h : ∀ y, 8 ≤ y → y < e → y ≠ x → m'.get y = m.get y) :
    (((checksum m' e).toNat : Int) - (checksum m e).toNat -
      (((m'.get x).toNat : Int) - (m.get x).toNat) * (if x % 2 = 0 then 1 else 256)) % 65536 = 0 := by
  obtain ⟨rest, hm, hm'⟩ := checksum_of_one_word (m := m) (m' := m') (e := e) (j := x / 2 - 4) (by omega)
    fun i hi hne => by rw [u16, u16, h _ (by omega) (by omega) (by omega), h _ (by omega) (by omega) (by omega)]
  have hword := u16_sub_of_one_byte fun y hy hne => h y (by omega) (by omega) hne
  rw [show 8 + 2 * (x / 2 - 4) = 2 * (x / 2) by omega] at hm hm'
  rw [← hword, hm, hm']
  omega

/-- Neither `d` nor `256 * d` is 0 modulo 2^16 for the difference `d` of two unequal bytes (43_checksum.md R165). -/
theorem byte_change_ne_zero {v w : Byte} (h : v ≠ w) (x : Nat) :
    (((v.toNat : Int) - w.toNat) * (if x % 2 = 0 then 1 else 256)) % 65536 ≠ 0 := by
  have hv := v.isLt
  have hw := w.isLt
  have hne : v.toNat ≠ w.toNat := BitVec.toNat_inj.not.mpr h
  split <;> omega

/-! PERM moves whole words (R166). -/

/-- The index of the word that `Permute(r)` moves to word `j`: a sub-block holds 40 words (41_permute.md R130). -/
def wordSource (t : Config.Tables) (r j : Nat) : Nat := 40 * t.row r (j / 40) + j % 40

section
variable {t : Config.Tables} {r q : Nat}

theorem wordSource_lt (j : Nat) : wordSource t r j < 160 := by
  have := row_lt t r (j / 40)
  unfold wordSource
  omega

/-- A row that undoes row `r` takes each word back to its index. -/
theorem wordSource_wordSource (h : ∀ blk < 4, t.row r (t.row q blk) = blk) {j : Nat} (hj : j < 160) :
    wordSource t r (wordSource t q j) = j := by
  have hblk : wordSource t q j / 40 = t.row q (j / 40) := by unfold wordSource; omega
  have hpos : wordSource t q j % 40 = j % 40 := by unfold wordSource; omega
  rw [wordSource, hblk, hpos, h (j / 40) (by omega)]
  omega

theorem u16_permute (m : Memory) {j : Nat} (hj : j < 160) :
    u16 (permute t r m) (8 + 2 * j) = u16 m (8 + 2 * wordSource t r j) := by
  have hget (k : Nat) (hk : k < 2) : (permute t r m).get (8 + 2 * j + k) = m.get (8 + 2 * wordSource t r j + k) := by
    have hblock := permute_get_block t r m (blk := j / 40) (k := 2 * (j % 40) + k) (by omega) (by omega)
    rwa [show 8 + 80 * (j / 40) + (2 * (j % 40) + k) = 8 + 2 * j + k by omega,
      show 8 + 80 * t.row r (j / 40) + (2 * (j % 40) + k) = 8 + 2 * wordSource t r j + k by
        unfold wordSource; omega] at hblock
  have hlow := hget 0 (by decide)
  have hhigh := hget 1 (by decide)
  rw [Nat.add_zero, Nat.add_zero] at hlow
  rw [u16, u16, hlow, hhigh]

/-- A row with an inverse row only reorders the words of the blocks region (43_checksum.md R166). -/
theorem checksum_permute (hrq : ∀ blk < 4, t.row r (t.row q blk) = blk) (hqr : ∀ blk < 4, t.row q (t.row r blk) = blk)
    (m : Memory) : checksum (permute t r m) 328 = checksum m 328 := by
  apply BitVec.eq_of_toNat_eq
  rw [checksum_toNat_sum, checksum_toNat_sum]
  refine congrArg (· % 65536) (Finset.sum_nbij' (wordSource t r) (wordSource t q) ?_ ?_ ?_ ?_ ?_)
  · exact fun j _ => Finset.mem_range.mpr (wordSource_lt j)
  · exact fun j _ => Finset.mem_range.mpr (wordSource_lt j)
  · exact fun j hj => wordSource_wordSource hqr (Finset.mem_range.mp hj)
  · exact fun j hj => wordSource_wordSource hrq (Finset.mem_range.mp hj)
  · exact fun j hj => u16_permute m (Finset.mem_range.mp hj)

end

/-! The obligations. -/

/-- Settles O55: CSUM's work is the one write. -/
theorem csumAddsTheWords : Obligations.CsumAddsTheWords :=
  ⟨encoded_row (.csum 0), fun s e =>
    ⟨fun h8 hlen heven => ⟨_, exec_csum h8 hlen heven, checksum_toNat s.buf e⟩,
      fun hv => exec_of_violates (i := .csum e) hv⟩⟩

/-- Settles O56: the bytes of the buffer that CSUMST leaves. -/
theorem csumstStoresTheChecksum : Obligations.CsumstStoresTheChecksum :=
  ⟨encoded_row (.csumst 0), fun s e =>
    ⟨fun h8 hlen heven => ⟨_, _, exec_csumst h8 hlen heven, checksum_toNat s.buf e,
        csumStored_get_low s.buf e, csumStored_get_high s.buf e, fun _ => csumStored_get_other s.buf e⟩,
      fun hv => exec_of_violates (i := .csumst e) hv⟩⟩

/-- Settles O57: MISMATCH is the only bit of STATUS that CSUMVF computes. -/
theorem csumvfComparesTheChecksum : Obligations.CsumvfComparesTheChecksum := by
  refine ⟨encoded_row (.csumvf 0), fun s e => ⟨fun h8 hlen heven => ⟨checksum s.buf e, ?_, checksum_toNat s.buf e⟩,
    fun hv => exec_of_violates (i := .csumvf e) hv⟩⟩
  rw [exec_csumvf h8 hlen heven, mismatchFlag_storedCsum]

/-- Settles O58: the store leaves bytes 8 to 327, so the checksum, and its field holds that checksum. -/
theorem checksumStoreConverges : Obligations.ChecksumStoreConverges := by
  intro s t u hexec hagree
  obtain ⟨hcsum, hbuf⟩ := csum_buf_of_exec_csumst (by decide) (stored_le_len s) (by decide) hexec
  have ht : checksum t.buf 328 = t.csum := by rw [hbuf, hcsum, checksum_csumStored]
  have hu : checksum u.buf 328 = t.csum := (checksum_congr hagree).trans ht
  have hfield : t.buf.storedCsum = t.csum := by rw [hbuf, hcsum, csumStored_storedCsum]
  refine ⟨⟨_, exec_csumst (by decide) (stored_le_len u) (by decide), hu, ?_⟩,
    _, exec_csumvf (by decide) (stored_le_len t) (by decide), ?_, ht⟩
  · rw [hbuf]
    exact csumStored_get_congr s.buf 328 (hu.trans hcsum)
  · exact decide_eq_false (not_not.mpr (ht.trans hfield.symm))

/-- Settles O59: the bytes outside the sum do not count, and inside it one changed byte moves the sum by no multiple of
2^16. -/
theorem checksumSeesEverySingleByte : Obligations.ChecksumSeesEverySingleByte := by
  refine ⟨fun m m' e h => checksum_congr h, fun m m' e x heven h8 hx hne h => ?_⟩
  have hmove := checksum_sub_of_one_byte heven h8 hx h
  refine ⟨fun heq => byte_change_ne_zero hne.symm x ?_, hmove⟩
  rwa [heq, sub_self, zero_sub, ← neg_mul, neg_sub] at hmove

/-- Settles O60: of the two rows `i` and `INV[i]` each undoes the other. -/
theorem permKeepsTheChecksum : Obligations.PermKeepsTheChecksum := by
  intro s i sel h hi
  refine ⟨_, exec_perm i sel s, ?_⟩
  have hrows : ∀ blk < 4, s.rom.row i (s.rom.row (s.rom.invRow i) blk) = blk := fun _ hb => (admissible_row h hi hb).1
  have hrows' : ∀ blk < 4, s.rom.row (s.rom.invRow i) (s.rom.row i blk) = blk := fun _ hb => (admissible_row h hi hb).2
  cases sel with
  | direct => exact checksum_permute hrows hrows' s.buf
  | inverse => exact checksum_permute hrows' hrows s.buf

end Sys2Proof.Machine

/-! PROOFS, 60_exceptions.md R170 to R187. How a command ends, a discarded write, what clears a sticky bit, and a block at
rest. -/

namespace Sys2Proof.Machine
open Sys2Proof.Claims

/-- Settles O26: a broken contract only raises ContractError. -/
theorem contractErrorIsTheOnlyEffect : Obligations.ContractErrorIsTheOnlyEffect := fun _ _ hv => exec_of_violates hv

/-- Settles O9: no command was in flight when the cycle began, so the cycle is the host's idle turn alone. -/
theorem idleBlockKeepsItsState : Obligations.IdleBlockKeepsItsState := fun _ hb =>
  ⟨fun hin => (step_of_hostTurn (hostTurn_empty hin)).trans (sequencerTurn_idle hb),
    fun _ hin => (step_of_hostTurn (hostTurn_idle hin)).trans (sequencerTurn_idle hb)⟩

/-! A write while BUSY = 1 (R173, R177). -/

/-- The registers that BUSY guards (60_exceptions.md R173); a write to one is discarded by `regWrite_busy`. -/
def guardedRegs : List Reg := [.ctrl, .cmd, .opa, .seed]

theorem regWrite_busy {s : State} {r : Reg} (hb : s.status.busy = true) (hr : r ∈ guardedRegs) (d : Word) :
    s.regWrite d r = s.raiseBusy := by
  cases r with
  | ctrl | cmd | opa | seed => exact State.unlessBusy_busy hb _
  | id | status | result | acc | pos | lcg | csum | reserved => exact absurd hr (by decide)

/-- A guarded write names one of these registers, by a word, or bytes of the window (60_exceptions.md R173). -/
theorem guardedWrite_target {n m : Nat} (h : GuardedWrite n m) :
    (m = 4 ∧ ∃ r ∈ guardedRegs, target n 4 = .reg r) ∨ ∃ a, target n m = .window a := by
  obtain ⟨hgood, haddr⟩ := h
  by_cases hw : 0x400 ≤ n
  · obtain ⟨ha, hal⟩ := window_of_not_badAccess hgood hw
    obtain ⟨a, rfl⟩ := Nat.exists_eq_add_of_le hw
    rw [Nat.add_sub_cancel_left] at ha hal
    exact .inr ⟨a, target_window ha hal⟩
  · have hm : m = 4 := by
      unfold BadAccess at hgood
      omega
    refine .inl ⟨hm, ?_⟩
    obtain rfl | rfl | rfl | rfl | h := haddr
    · exact ⟨.ctrl, by decide, rfl⟩
    · exact ⟨.cmd, by decide, rfl⟩
    · exact ⟨.opa, by decide, rfl⟩
    · exact ⟨.seed, by decide, rfl⟩
    · exact absurd h hw

theorem Size.eq_word {size : Size} (h : size.bytes = 4) : size = .word :=
  of_not_not fun hne => Size.bytes_ne_four hne h

/-- Settles O16: the four registers and the window are written unless BUSY. -/
theorem busyWriteIsDiscarded : Obligations.BusyWriteIsDiscarded := by
  intro s addr size d hb hg
  obtain ⟨hsize, r, hr, ht⟩ | ⟨a, ht⟩ := guardedWrite_target hg
  · obtain rfl := Size.eq_word hsize
    rw [perform_write_reg ht, regWrite_busy hb hr]
    rfl
  · rw [perform_write_window ht, State.unlessBusy_busy hb]
    rfl

/-- Settles O21: the discarded write sets ERR_BUSY, which the command's end leaves; the end runs the command of `s`, with
the same contract. -/
theorem sameCycleEventsAreBothRecorded : Obligations.SameCycleEventsAreBothRecorded := by
  intro s addr size d rest hb hw hg hin
  have hsame := answer_sameFlight hb (.write addr size d) rest
  have hstep := step_last (hostTurn_transact hin) hb hsame.busy (hsame.wait.trans hw)
  have hdiscard := busyWriteIsDiscarded { s with inbox := rest } addr size d hb hg
  obtain ⟨t, ht⟩ := runCommand_next (State.answer { s with inbox := rest } (.write addr size d))
  obtain ⟨hbusy, hdone, herrBusy⟩ := runCommand_ends ht
  refine ⟨t, hstep.trans ht, ?_, hdone, hbusy, fun hill => runCommand_errIllegal ht (hsame.cmdl.symm ▸ hill),
    fun i hd hv => runCommand_errContract ht (hsame.cmdl.symm ▸ hd) ((violates_congr hsame.ctrl hsame.pos i).mpr hv)⟩
  rw [herrBusy, State.answer, hdiscard]
  rfl

/-! The errors of one command (R176). -/

/-- Settles O28: a rejected word writes no bit of STATUS but ERR_ILLEGAL, DONE and BUSY, a broken contract none but
ERR_CONTRACT, DONE and BUSY, and a command's work neither error bit. -/
theorem oneErrorAtMost : Obligations.OneErrorAtMost := by
  intro s
  cases hd : decode s.cmdl with
  | error r =>
    exact ⟨_, runCommand_of_error hd, .inr rfl, fun _ => rfl, fun _ => ⟨rfl, rfl⟩, fun i hi => nomatch hi⟩
  | ok i =>
    have hlegal : ¬Illegal s.cmdl := (matchesRow_of_decode hd).not_illegal
    rw [runCommand_of_ok hd]
    by_cases hv : Violates s i
    · exact ⟨_, exec_of_violates hv, .inl rfl, fun _ => rfl, fun hill => absurd hill hlegal,
        fun j _ => ⟨rfl, fun _ => ⟨rfl, rfl⟩⟩⟩
    · have hill : (s.work i).complete.status.errIllegal = s.status.errIllegal := State.work_errIllegal s i
      have hcon : (s.work i).complete.status.errContract = s.status.errContract := State.work_errContract s i
      refine ⟨_, exec_of_not_violates hv, .inl hill, fun hne => ?_, fun h => absurd h hlegal, fun j hj => ⟨hill, ?_⟩⟩
      · exact hne.elim (absurd hill) (absurd hcon)
      · cases hj
        exact fun h => absurd h hv

/-! The sticky bits (R179, 10_state.md R26). -/

/-- Each sticky bit that is set in `a` is set in `b`: DONE, the ERR bits and CLAMP (60_exceptions.md R179). -/
structure StickyStays (a b : Status) : Prop where
  done : a.done = true → b.done = true
  errIllegal : a.errIllegal = true → b.errIllegal = true
  errContract : a.errContract = true → b.errContract = true
  errBusy : a.errBusy = true → b.errBusy = true
  clamp : a.clamp = true → b.clamp = true

theorem StickyStays.refl (a : Status) : StickyStays a a := ⟨id, id, id, id, id⟩

theorem StickyStays.trans {a b c : Status} (h : StickyStays a b) (h' : StickyStays b c) : StickyStays a c :=
  ⟨h'.done ∘ h.done, h'.errIllegal ∘ h.errIllegal, h'.errContract ∘ h.errContract, h'.errBusy ∘ h.errBusy,
    h'.clamp ∘ h.clamp⟩

section
variable (s : State)

/-- A STATUS write sets no bit (10_state.md R26). -/
theorem clearSticky_sticky (d : Word) : StickyStays (s.clearSticky d).status s.status :=
  ⟨Bool.and_elim_left, Bool.and_elim_left, Bool.and_elim_left, Bool.and_elim_left, Bool.and_elim_left⟩

theorem raise_sticky (e : CmdError) : StickyStays s.status (s.raise e).status := by
  cases e with
  | illegalCommand => exact ⟨fun _ => rfl, fun _ => rfl, id, id, id⟩
  | contractError => exact ⟨fun _ => rfl, id, fun _ => rfl, id, id⟩

theorem raiseBusy_sticky : StickyStays s.status s.raiseBusy.status := ⟨id, id, id, fun _ => rfl, id⟩

theorem accept_sticky (c : Word) : StickyStays s.status (s.accept c).status := ⟨id, id, id, id, id⟩

theorem unlessBusy_sticky {t : State} (h : StickyStays s.status t.status) :
    StickyStays s.status (s.unlessBusy t).status := by
  obtain he | he := ite_eq_or_eq (s.status.busy = true) s.raiseBusy t <;> rw [State.unlessBusy, he]
  · exact raiseBusy_sticky s
  · exact h

/-- PKAPP can set CLAMP but not clear it, and no other command writes it (40_bitfield.md R114). -/
theorem work_clamp_stays (i : Instr) (h : s.status.clamp = true) : (s.work i).status.clamp = true := by
  cases i with
  | pkapp w => simp [State.work, clampFlag, h]
  | _ => exact (work_clamp s (by simp [Instr.mnemonic])).trans h

theorem exec_sticky {s t : State} {i : Instr} (h : exec i s = .next t) : StickyStays s.status t.status := by
  obtain ⟨-, rfl⟩ | ⟨-, rfl⟩ := exec_cases h
  · exact raise_sticky s _
  · exact ⟨fun _ => rfl, (s.work_errIllegal i).trans, (s.work_errContract i).trans, (s.work_errBusy i).trans,
      work_clamp_stays s i⟩

/-- STATUS is the only register whose write clears a sticky bit (10_state.md R26). -/
theorem regWrite_sticky {r : Reg} (hr : r ≠ .status) (d : Word) : StickyStays s.status (s.regWrite d r).status := by
  cases r with
  | status => exact absurd rfl hr
  | cmd => exact unlessBusy_sticky s (accept_sticky s d)
  | ctrl | opa | seed => exact unlessBusy_sticky s (.refl _)
  | id | result | acc | pos | lcg | csum | reserved => exact .refl _

end

/-- Only an aligned word access names a register (20_memory.md R65). -/
theorem target_eq_reg {n m : Nat} {r : Reg} (h : target n m = .reg r) : m = 4 ∧ regAt n = r := by
  unfold target at h
  split_ifs at h with _ hword
  cases h
  exact ⟨hword.1, rfl⟩

/-- STATUS is the word at 0x008 only (10_state.md R22). -/
theorem regAt_eq_status {n : Nat} (h : regAt n = .status) : n = 0x008 := by
  unfold regAt at h
  split_ifs at h
  assumption

/-- A transaction clears no sticky bit but those to which it writes 1 in STATUS (60_exceptions.md R179). -/
theorem perform_sticky (s : State) (tr : Transaction) :
    StickyStays (s.clearSticky (statusWritten (some (.transact tr)))).status (s.perform tr).1.status := by
  cases tr with
  | read addr size =>
    obtain he | ⟨-, he⟩ := perform_read_state s addr size <;> rw [he] <;> exact clearSticky_sticky s _
  | write addr size d =>
    cases ht : target addr.toNat size.bytes with
    | error =>
      rw [(perform_error ht d).2]
      exact clearSticky_sticky s _
    | window a =>
      rw [perform_write_window ht]
      exact (clearSticky_sticky s _).trans (unlessBusy_sticky s (.refl _))
    | reg r =>
      obtain ⟨hsize, hr⟩ := target_eq_reg ht
      obtain rfl := Size.eq_word hsize
      rw [perform_write_reg ht]
      by_cases hstatus : r = .status
      · obtain rfl : addr = 0x008 := BitVec.eq_of_toNat_eq (regAt_eq_status (hr.trans hstatus))
        rw [hstatus]
        exact .refl _
      · exact (clearSticky_sticky s _).trans (regWrite_sticky s hstatus d)

/-- The host's turn clears no sticky bit but those to which it writes 1 in STATUS, unless it asserts reset. -/
theorem hostTurn_sticky {s h : State} (ht : hostTurn s = .next h) (hreset : s.inbox.head? ≠ some .reset) :
    StickyStays (s.clearSticky (statusWritten s.inbox.head?)).status h.status := by
  obtain ⟨rfl, -⟩ | ⟨rfl, -⟩ | ⟨tr, htr, rfl⟩ | ⟨hr, -⟩ := hostTurn_cases ht
  · exact clearSticky_sticky _ _
  · exact clearSticky_sticky s _
  · rw [htr]
    exact perform_sticky { s with inbox := s.inbox.tail } tr
  · exact absurd hr hreset

/-- A step clears no sticky bit but those to which the host writes 1 in STATUS, unless the host asserts reset. -/
theorem step_sticky {s t : State} (hs : step s = .next t) (hreset : s.inbox.head? ≠ some .reset) :
    StickyStays (s.clearSticky (statusWritten s.inbox.head?)).status t.status := by
  obtain ⟨h, hturn, hend⟩ := step_cases hs
  refine (hostTurn_sticky hturn hreset).trans ?_
  obtain ⟨-, rfl⟩ | ⟨-, -, rfl⟩ | ⟨-, -, -, rfl⟩ | ⟨-, -, i, -, he⟩ := hend
  · exact .refl _
  · exact .refl _
  · exact raise_sticky h _
  · exact exec_sticky he

/-- Settles O29: after a step every sticky bit is set that the host's STATUS write, if any, leaves set. -/
theorem stickyBitsStaySet : Obligations.StickyBitsStaySet := by
  intro s t hs hreset
  obtain ⟨hdone, hillegal, hcontract, hbusy, hclamp⟩ := step_sticky hs hreset
  have stays {old cleared new : Bool} (h : (old && !cleared) = true → new = true) (hold : old = true)
      (hc : cleared = false) : new = true := h (by rw [hold, hc]; rfl)
  exact ⟨stays hdone, stays hillegal, stays hcontract, stays hbusy, stays hclamp⟩

/-! A command in flight comes to its end (R170, 70_reset_and_hazards.md R203). -/

/-- In its next `n` cycles the host neither asserts reset nor overlaps transactions (70_reset_and_hazards.md R205). -/
def Quiet (n : Nat) (inbox : List HostEvent) : Prop := ∀ e ∈ inbox.take n, e ≠ .reset ∧ e ≠ .overlap

theorem Quiet.tail {n : Nat} {inbox : List HostEvent} (h : Quiet (n + 1) inbox) : Quiet n inbox.tail := by
  cases inbox with
  | nil => simp [Quiet]
  | cons e rest => exact fun e' he' => h e' (List.mem_cons_of_mem _ he')

theorem Quiet.head {n : Nat} {inbox : List HostEvent} (h : Quiet (n + 1) inbox) :
    inbox.head? ≠ some .reset ∧ inbox.head? ≠ some .overlap := by
  cases inbox with
  | nil => simp
  | cons e rest =>
    obtain ⟨hreset, hoverlap⟩ := h e List.mem_cons_self
    exact ⟨fun he => hreset (Option.some.inj he), fun he => hoverlap (Option.some.inj he)⟩

/-- A transaction leaves what the host does next (log entry 8). -/
theorem perform_inbox (s : State) (tr : Transaction) : (s.perform tr).1.inbox = s.inbox := by
  cases tr with
  | read addr size =>
    obtain he | ⟨-, he⟩ := perform_read_state s addr size <;> rw [he]
  | write addr size d =>
    obtain he | he | ⟨-, he⟩ | ⟨-, he | he | he | he | ⟨a, he⟩⟩ := portWrite_cases s addr.toNat size.bytes d <;>
      rw [State.perform, he] <;> rfl

/-- The host's turn takes one event (log entry 8). -/
theorem hostTurn_inbox {s h : State} (ht : hostTurn s = .next h) : h.inbox = s.inbox.tail := by
  obtain ⟨rfl, hin⟩ | ⟨rfl, -⟩ | ⟨tr, -, rfl⟩ | ⟨-, rfl⟩ := hostTurn_cases ht
  · rw [hin, List.tail_nil]
  · rfl
  · exact perform_inbox _ tr
  · rfl

/-- Only an overlap stops the host's turn (70_reset_and_hazards.md R205). -/
theorem hostTurn_next {s : State} (h : s.inbox.head? ≠ some .overlap) : ∃ u, hostTurn s = .next u := by
  cases hin : s.inbox with
  | nil => exact ⟨s, hostTurn_empty hin⟩
  | cons e rest =>
    cases e with
    | idle => exact ⟨_, hostTurn_idle hin⟩
    | transact tr => exact ⟨_, hostTurn_transact hin⟩
    | reset => exact ⟨State.resetEvent { s with inbox := rest }, by simp only [hostTurn, hin]⟩
    | overlap => exact absurd (congrArg List.head? hin) h

/-- A command in flight has its host's turn, which keeps it in flight and takes one event of a quiet host. -/
theorem hostTurn_inFlight {s : State} {n : Nat} (hb : s.status.busy = true) (hquiet : Quiet (n + 1) s.inbox) :
    ∃ h, hostTurn s = .next h ∧ SameFlight s h ∧ h.inbox = s.inbox.tail := by
  obtain ⟨hreset, hoverlap⟩ := hquiet.head
  obtain ⟨h, hturn⟩ := hostTurn_next hoverlap
  exact ⟨h, hturn, hostTurn_sameFlight hb hreset hturn, hostTurn_inbox hturn⟩

/-- A run is the first step and the run from there. -/
theorem run_succ {s t : State} (h : step s = .next t) (k : Nat) :
    Sys2Proof.core.run (k + 1) s = Sys2Proof.core.run k t := by
  have hcore : Sys2Proof.core.step s = .next t := h
  simp only [Host.Core.run, hcore]

/-- Settles O7, by induction on the cycles left to wait: each but the last keeps the command in flight and takes one event
of the host, and the last ends the command. -/
theorem acceptedCommandEnds : Obligations.AcceptedCommandEnds := by
  intro s hb (hquiet : Quiet (s.wait + 1) s.inbox)
  induction hw : s.wait generalizing s with
  | zero =>
    obtain ⟨h, hturn, hsame, -⟩ := hostTurn_inFlight hb hquiet
    obtain ⟨t, ht⟩ := runCommand_next h
    obtain ⟨hbusy, hdone, -⟩ := runCommand_ends ht
    have hstep := (step_last hturn hb hsame.busy (hsame.wait.trans hw)).trans ht
    refine ⟨fun k hk => ?_, t, run_succ hstep 0, hbusy, hdone⟩
    obtain rfl := Nat.le_zero.mp hk
    exact ⟨s, rfl, hb⟩
  | succ w ih =>
    obtain ⟨h, hturn, hsame, hin⟩ := hostTurn_inFlight hb hquiet
    have hwait : h.wait = w + 1 := hsame.wait.trans hw
    have hstep : step s = .next h.elapse :=
      (step_of_hostTurn hturn).trans (sequencerTurn_wait hb hsame.busy (by omega))
    have hleft : h.elapse.wait = w := congrArg (· - 1) hwait
    have htail : Quiet (h.elapse.wait + 1) h.elapse.inbox := by
      rw [hleft, State.elapse_inbox, hin, ← hw]
      exact hquiet.tail
    obtain ⟨hflight, t, ht, hend⟩ := ih h.elapse hsame.busy htail hleft
    refine ⟨fun k hk => ?_, t, (run_succ hstep _).trans ht, hend⟩
    cases k with
    | zero => exact ⟨s, rfl, hb⟩
    | succ k =>
      rw [run_succ hstep k]
      exact hflight k (Nat.le_of_succ_le_succ hk)

end Sys2Proof.Machine

/-! PROOFS, 70_reset_and_hazards.md R190, R199, R205. What stops a step, what reset leaves, and a container whose FORM
changes between encryption and decryption. -/

namespace Sys2Proof.Machine
open Sys2Proof.Claims

/-! What stops a step (R205). -/

/-- The host breaks its duty in this cycle (70_reset_and_hazards.md R205, log entry 10). -/
theorem hostTurn_overlap {s : State} (h : s.inbox.head? = some .overlap) : hostTurn s = .fault .hostOverlap := by
  obtain ⟨rest, hin⟩ := List.head?_eq_some_iff.mp h
  simp only [hostTurn, hin]

/-- The sequencer never stops: no command does (60_exceptions.md R170 to R172). -/
theorem sequencerTurn_next (s h : State) : ∃ t, sequencerTurn s h = .next t := by
  unfold sequencerTurn
  split
  · split
    · exact runCommand_next h
    · exact ⟨_, rfl⟩
  · exact ⟨h, rfl⟩

/-- Settles O10: of the two turns of a cycle only the host's can stop, and it does so on an overlap only. -/
theorem onlyHostOverlapStops : Obligations.OnlyHostOverlapStops := by
  refine fun s => ⟨fun hoverlap => ?_, fun hne => ?_⟩
  · rw [step, hostTurn_overlap hoverlap]
  · obtain ⟨h, hturn⟩ := hostTurn_next hne
    rw [step_of_hostTurn hturn]
    exact sequencerTurn_next s h

/-! What reset leaves (R190). -/

theorem hostTurn_reset {s : State} {rest : List HostEvent} (h : s.inbox = .reset :: rest) :
    hostTurn s = .next (State.resetEvent { s with inbox := rest }) := by
  simp only [hostTurn, h]

/-- After a host's turn that leaves BUSY = 0 no command is in flight: reset abandons it (70_reset_and_hazards.md R190). -/
theorem sequencerTurn_abandoned {s h : State} (hh : h.status.busy = false) : sequencerTurn s h = .next h := by
  simp [sequencerTurn, inFlight, hh]

/-- A cycle in which the host asserts reset is the reset event alone, a command in flight or not. -/
theorem step_reset {s : State} {rest : List HostEvent} (h : s.inbox = .reset :: rest) :
    step s = .next (State.resetEvent { s with inbox := rest }) :=
  (step_of_hostTurn (hostTurn_reset h)).trans (sequencerTurn_abandoned rfl)

/-- After the reset event every register reads as in the initial state (10_state.md R22). -/
theorem resetEvent_regValue (s : State) (r : Reg) : s.resetEvent.regValue r = State.reset.regValue r := by
  cases r <;> rfl

/-- Settles O11: a block whose registers and CTRL are those of the initial state is at reset, and the reset event leaves
such a block. -/
theorem resetLeavesTheResetValues : Obligations.ResetLeavesTheResetValues := by
  unfold Obligations.ResetLeavesTheResetValues
  intro AtReset
  have atReset (t : State) (hreg : ∀ r, t.regValue r = State.reset.regValue r) (hctrl : t.ctrl = Ctrl.reset) :
      AtReset t := by
    refine ⟨hreg .id, hreg .ctrl, hreg .status, hreg .opa, hreg .seed, hreg .result, hreg .acc, hreg .pos, hreg .lcg,
      hreg .csum, ?_, ?_⟩
    · exact len_stored (congrArg Ctrl.form hctrl)
    · rw [State.irq, hctrl]
      rfl
  exact ⟨atReset _ (fun _ => rfl) rfl, fun _ => rfl, fun s rest hin =>
    ⟨_, step_reset hin, atReset _ (resetEvent_regValue _) rfl, rfl, rfl, fun _ => rfl⟩⟩

/-! A container whose FORM changes between encryption and decryption (R199). -/

/-- At either LEN `CryptPKM` gives a byte below 328 the same key, so at two LENs it cancels there (R143, R199). -/
theorem cryptPkm_cryptPkm_agreeBelow (s u : State) (k : Word) (m : Memory) :
    AgreeBelow 328 (cryptPkm u.len k (cryptPkm s.len k m).1).1 m := by
  intro x hx
  by_cases h8 : x < 8
  · rw [cryptPkm_get_header u k _ h8, cryptPkm_get_header s k m h8]
  · obtain ⟨j, rfl⟩ := Nat.exists_eq_add_of_le (Nat.le_of_not_lt h8)
    rw [cryptPkm_get_block u k _ (by omega), cryptPkm_get_block s k m (by omega), xor_key_key]

/-- At FORM = 1 DECRYPT un-XORs the party bytes with the keystream from the seed again (42_cipher.md R143). -/
theorem decryptArray_get_party_crypted {s : State} (hform : s.ctrl.form = true) {x : Nat} (hlo : 328 ≤ x)
    (hhi : x < 344) : s.decryptArray.buf.get x = s.buf.get x ^^^ keyAt s.buf.seed (x - 328) := by
  have hlen : s.len = 344 := if_pos hform
  rw [decryptArray_buf, permute_get_outside _ _ _ (.inr hlo), cryptPkm_get_crypted, cryptedByte, if_neg (by omega),
    if_pos ⟨hlo, hlen.symm ▸ hhi⟩]

section
variable (s : State) (c : Ctrl)

/-- `s` encrypted, and CTRL written with `c` before the next command (70_reset_and_hazards.md R199). -/
def State.encryptedUnder : State := { s.encryptArray.complete with ctrl := c }

/-- The seed stands, so decryption under `c` takes the row and the keystream of the encryption (42_cipher.md R151). -/
theorem encryptedUnder_decryptArray_buf : (s.encryptedUnder c).decryptArray.buf = permute s.rom
    (shuffleIndex s.buf.seed) (cryptPkm (s.encryptedUnder c).len s.buf.seed s.encryptArray.buf).1 := by
  rw [← encryptArray_buf_seed]
  rfl

/-- The stored bytes come back under any CTRL: the two XORs cancel there and row `i` undoes row `INV[i]`. -/
theorem encryptedUnder_decryptArray_agreeBelow (h : s.rom.admissible = true) :
    AgreeBelow 328 (s.encryptedUnder c).decryptArray.buf s.buf := by
  intro x hx
  rw [encryptedUnder_decryptArray_buf, encryptArray_buf]
  exact ((cryptPkm_cryptPkm_agreeBelow s _ _ _).permute _ _ x hx).trans
    (permute_permute_invRow h (shuffleIndex_lt _) _ x)

/-- Encrypted at FORM = 0 and decrypted at FORM = 1, the party bytes are XORed once (70_reset_and_hazards.md R199). -/
theorem encryptedUnder_decryptArray_get_party (hform : s.ctrl.form = false) (hc : c.form = true) {x : Nat}
    (hlo : 328 ≤ x) (hhi : x < 344) : (s.encryptedUnder c).decryptArray.buf.get x =
      s.buf.get x ^^^ keyAt (BitVec.ofNat 32 (seedOf s.buf)) (x - 328) := by
  have hseed : (s.encryptedUnder c).buf.seed = BitVec.ofNat 32 (seedOf s.buf) :=
    (encryptArray_buf_seed s).trans (seed_eq s.buf)
  have hbyte : (s.encryptedUnder c).buf.get x = s.buf.get x := encryptArray_get_party hform hlo
  rw [decryptArray_get_party_crypted (s := s.encryptedUnder c) hc hlo hhi, hseed, hbyte]

end

/-- Settles O54: bytes below 328 do not see the FORM; from FORM = 1 to 0 DECRYPT leaves the party bytes, from FORM = 0 to 1
ENCRYPT does. -/
theorem storedBytesDoNotDependOnForm : Obligations.StoredBytesDoNotDependOnForm := by
  intro s irq h
  refine ⟨_, _, exec_encrypt s, exec_decrypt (s.encryptedUnder ⟨!s.ctrl.form, irq⟩),
    encryptedUnder_decryptArray_agreeBelow s _ h, fun x hlo hhi => ⟨fun hform => ?_, fun hform => ?_⟩⟩
  · exact decryptArray_get_party (s := s.encryptedUnder ⟨!s.ctrl.form, irq⟩) (congrArg (!·) hform) hlo
  · exact encryptedUnder_decryptArray_get_party s _ hform (congrArg (!·) hform) hlo hhi

end Sys2Proof.Machine
